-- ==== Sys2Proof/Word.lean ====
section
/-! DEFINITION. The machine word and the bounds of its signed range (00_scope.md R6, R10). -/

namespace Sys2Proof

/-- `XLEN` (00_scope.md R6, 93_implementation_defined.md U6): the width of a Word, a parameter. Its value 32 is the spec's
own decision D1 (PRESUMED, log 1, unsafe), and no other definition writes it down. -/
@[simp] abbrev XLEN : Nat := 32

/-- A `Word`: `XLEN` bits, two's complement (00_scope.md R6). Every register, memory word, operand and the interrupt
counter is one. `+` and `-` are the wrapping `+w` and `-w` of R10, and the signed value that R10's comparisons speak
of is `BitVec.toInt`. -/
abbrev Word : Type := BitVec XLEN

/-- The least value a Word can hold (R6). -/
def Word.minInt : Int := -((2 ^ (XLEN - 1) : Nat) : Int)

/-- The greatest value a Word can hold (R6). -/
def Word.maxInt : Int := ((2 ^ (XLEN - 1) : Nat) : Int) - 1

/-- Whether an integer is the value of some Word (30_encoding.md R93). -/
def Word.fits (v : Int) : Bool := decide (Word.minInt ≤ v ∧ v ≤ Word.maxInt)

end Sys2Proof
end

