-- ==== Sys2Proof/Config.lean ====
section
/-! DEFINITION. What an implementation fixes (00_scope.md R5, R8) and the free values the spec leaves open. The
values of the record stand in Machine/Params.lean. -/

namespace Sys2Proof

/-- The three fatal faults of the core (60_exceptions.md R181); the name is the whole identification. -/
inductive FaultKind where
  | memoryViolation
  | outOfBounds
  | invalidInstruction
  deriving DecidableEq, Repr

/-- `TIMER_SAMPLE`: when `InInterrupt` is sampled for the timer's count (40_cycle.md R109, decision D17). -/
inductive TimerSample where
  | before
  | after
  deriving DecidableEq, Repr

/-- The constants of 00_scope.md R5 as one record, with the two switches that 93_implementation_defined.md
names as parameters (U15 and U3). The literals are unaudited (R2): log 23. -/
structure Config where
  /-- `MEM_WORDS`: addresses are `0 .. memWords - 1`. -/
  memWords : Nat
  /-- `PROT_BASE`: the lowest address of the system region. -/
  protBase : Int
  /-- `TIMER_VEC`: entry address of the timer handler. -/
  timerVec : Word
  /-- `INT_VEC`: entry address of the `Int` handler. -/
  intVec : Word
  /-- `USER_SP_RESET`: `SP` after reset. -/
  userSpReset : Word
  /-- `SYS_SP_BASE`: the value `SP` takes on trap entry before the two saves. -/
  sysSpBase : Word
  /-- `RESET_PC`: `PC` after reset. -/
  resetPc : Word
  /-- `HALT_OPCODE`: the opcode of `Halt`. -/
  haltOpcode : Word
  /-- `RAND_LO`: the least value `Rand` writes. -/
  randLo : Nat
  /-- `RAND_HI`: the greatest value `Rand` writes. -/
  randHi : Nat
  /-- What a memory word that the image does not name holds (decision D3, log 3). -/
  fill : Word
  /-- `TIMER_SAMPLE` (90_conflicts.md C1, decision D17, log 13). -/
  timerSample : TimerSample
  /-- `DROP_RESETS_COUNTER` (decision D5, log 14). -/
  dropResetsCounter : Bool
  deriving DecidableEq, Repr

/-- FREE VALUE (log 7). `RandSource`: the random source's answer to its n-th draw, of which nothing is known;
`Machine.draw` brings it into `RAND_LO .. RAND_HI`. 42_rand_put.md R130, decision D10. -/
opaque Config.randSource : Nat → Word

/-- FREE VALUE (log 21). The open parameter `FAULT_EXIT_CODE`, possibly different for each kind of fault;
`Machine.exitCode` makes it non-zero. 40_cycle.md R112, decision D13. -/
opaque Config.faultExitCode : FaultKind → Nat

end Sys2Proof
end

