-- ==== Sys2Proof/Machine/Params.lean ====
section
/-! DEFINITION. The values of the configuration record (00_scope.md R5). -/

namespace Sys2Proof

/-- The constants as 00_scope.md R5 gives them, with the defaults of the decisions D3, D5 and D17. -/
abbrev config : Config where
  memWords := 2000
  protBase := 1000
  timerVec := 1000
  intVec := 1500
  userSpReset := 999
  sysSpBase := 1999
  resetPc := 0
  haltOpcode := 50
  randLo := 1
  randHi := 100
  fill := 0
  timerSample := .before
  dropResetsCounter := true

end Sys2Proof
end

