-- ==== Sys2Proof/Syntax.lean ====
section
/-! DEFINITION. The instructions: one constructor per row of spec/opcode_table.json (30_encoding.md R85). An
`OP_ARG` instruction carries its operand, the whole Word after the opcode (R82); an `OP` instruction has none. -/

namespace Sys2Proof

/-- The 31 instructions, in the table's order. -/
inductive Instr where
  | loadValue (imm : Word)
  | loadAddr (addr : Word)
  | loadInd (addr : Word)
  | loadIdxX (addr : Word)
  | loadIdxY (addr : Word)
  | loadSpX
  | store (addr : Word)
  | rand
  | put (port : Word)
  | addX
  | addY
  | subX
  | subY
  | copyToX
  | copyFromX
  | copyToY
  | copyFromY
  | copyToSP
  | copyFromSP
  | jump (addr : Word)
  | jumpIfEqual (addr : Word)
  | jumpIfNotEqual (addr : Word)
  | call (addr : Word)
  | ret
  | incX
  | decX
  | push
  | pop
  | int
  | iRet
  | halt
  deriving DecidableEq, Repr

/-- The two formats of 30_encoding.md R81. -/
inductive Format where
  | op
  | opArg
  deriving DecidableEq, Repr

/-- The length in words of an instruction of a format (30_encoding.md R81; no instruction has three words, R83). -/
def Format.words : Format → Nat
  | .op => 1
  | .opArg => 2

end Sys2Proof
end

