-- ==== Sys2Proof/Decode.lean ====
section
/-! DEFINITION. From words to instructions and back (30_encoding.md). There are no bytes and no bit fields: the
opcode is the value of the whole first word (R80), the operand the whole second word (R82). -/

namespace Sys2Proof

/-- What the opcode word alone tells (30_encoding.md R84): a whole one-word instruction, or an instruction that
still wants its operand word. -/
inductive Opened where
  | op (i : Instr)
  | opArg (withOperand : Word → Instr)

/-- The format of what an opcode word opened. -/
def Opened.format : Opened → Format
  | .op _ => .op
  | .opArg _ => .opArg

/-- The opcode map (30_encoding.md R85), by equality with the whole word; `none` for every word that is not one
of the 31 opcodes (R86, 40_cycle.md R102). The `Halt` test comes first, as in 40_cycle.md R100. -/
def openOpcode (w : Word) : Option Opened :=
  if w = config.haltOpcode then some (.op .halt)
  else
    match w.toNat with
    | 1 => some (.opArg .loadValue)
    | 2 => some (.opArg .loadAddr)
    | 3 => some (.opArg .loadInd)
    | 4 => some (.opArg .loadIdxX)
    | 5 => some (.opArg .loadIdxY)
    | 6 => some (.op .loadSpX)
    | 7 => some (.opArg .store)
    | 8 => some (.op .rand)
    | 9 => some (.opArg .put)
    | 10 => some (.op .addX)
    | 11 => some (.op .addY)
    | 12 => some (.op .subX)
    | 13 => some (.op .subY)
    | 14 => some (.op .copyToX)
    | 15 => some (.op .copyFromX)
    | 16 => some (.op .copyToY)
    | 17 => some (.op .copyFromY)
    | 18 => some (.op .copyToSP)
    | 19 => some (.op .copyFromSP)
    | 20 => some (.opArg .jump)
    | 21 => some (.opArg .jumpIfEqual)
    | 22 => some (.opArg .jumpIfNotEqual)
    | 23 => some (.opArg .call)
    | 24 => some (.op .ret)
    | 25 => some (.op .incX)
    | 26 => some (.op .decX)
    | 27 => some (.op .push)
    | 28 => some (.op .pop)
    | 29 => some (.op .int)
    | 30 => some (.op .iRet)
    | _ => none

/-- Why a list of words is no instruction. -/
inductive DecodeError where
  /-- The first word is none of the 31 opcodes (30_encoding.md R86). -/
  | invalidInstruction (op : Word)
  /-- There is no word at all. -/
  | noWords
  /-- The opcode wants an operand and there is no second word. -/
  | noOperand (op : Word)
  deriving DecidableEq, Repr

/-- Decoding of the words from an instruction's first on: the instruction and the words after it. -/
def decode : List Word → Except DecodeError (Instr × List Word)
  | [] => .error .noWords
  | w :: rest =>
    match openOpcode w with
    | none => .error (.invalidInstruction w)
    | some (.op i) => .ok (i, rest)
    | some (.opArg withOperand) =>
      match rest with
      | [] => .error (.noOperand w)
      | a :: rest => .ok (withOperand a, rest)

/-- The opcode of an instruction (30_encoding.md R85). -/
def opcodeOf : Instr → Word
  | .loadValue _ => 1
  | .loadAddr _ => 2
  | .loadInd _ => 3
  | .loadIdxX _ => 4
  | .loadIdxY _ => 5
  | .loadSpX => 6
  | .store _ => 7
  | .rand => 8
  | .put _ => 9
  | .addX => 10
  | .addY => 11
  | .subX => 12
  | .subY => 13
  | .copyToX => 14
  | .copyFromX => 15
  | .copyToY => 16
  | .copyFromY => 17
  | .copyToSP => 18
  | .copyFromSP => 19
  | .jump _ => 20
  | .jumpIfEqual _ => 21
  | .jumpIfNotEqual _ => 22
  | .call _ => 23
  | .ret => 24
  | .incX => 25
  | .decX => 26
  | .push => 27
  | .pop => 28
  | .int => 29
  | .iRet => 30
  | .halt => config.haltOpcode

/-- The operand word of an instruction, where its format has one (30_encoding.md R82). -/
def operandOf : Instr → Option Word
  | .loadValue a | .loadAddr a | .loadInd a | .loadIdxX a | .loadIdxY a => some a
  | .store a | .put a => some a
  | .jump a | .jumpIfEqual a | .jumpIfNotEqual a | .call a => some a
  | .loadSpX | .rand => none
  | .addX | .addY | .subX | .subY | .incX | .decX => none
  | .copyToX | .copyFromX | .copyToY | .copyFromY | .copyToSP | .copyFromSP => none
  | .ret | .push | .pop | .int | .iRet | .halt => none

/-- The words of an instruction (30_encoding.md R80 to R82). -/
def encode (i : Instr) : List Word := opcodeOf i :: (operandOf i).toList

/-- The format of an instruction (30_encoding.md R81). -/
def formatOf (i : Instr) : Format :=
  match operandOf i with
  | none => .op
  | some _ => .opArg

/-- The words whose bits are `w`, numbered as spec/opcode_table.json numbers them: the first word is the
low `XLEN` bits, the second the next `XLEN`; every bit from `nbits` on is 0. -/
def tableWords (nbits w : Nat) : List Word :=
  [BitVec.ofNat XLEN (w % 2 ^ nbits), BitVec.ofNat XLEN (w % 2 ^ nbits / 2 ^ XLEN)]

/-- The instruction the decoder reads from an instruction whose bits are `w`; `none` where it refuses. -/
def decodeTableWord (nbits w : Nat) : Option Instr :=
  match decode (tableWords nbits w) with
  | .ok (i, _) => some i
  | .error _ => none

end Sys2Proof
end

