-- ==== Sys2Proof/Machine/State.lean ====
section
/-! DEFINITION. The state of the machine (10_state.md), the reasons a step can stop, and the state after reset. -/

namespace Sys2Proof.Machine

/-- `Mode` (10_state.md R29). -/
inductive Mode where
  | user
  | kernel
  deriving DecidableEq, Repr

/-- The MemoryStore's array as cells `(address, word)` in one canonical form (`Memory.wf`): addresses strictly
rising and below `MEM_WORDS`, no cell holding what an unlisted address reads as. The unit is the Word, never the
byte (20_memory.md R67, log 4). -/
abbrev Memory : Type := List (Nat × Word)

/-- The messages from the Processor to the MemoryStore (20_memory.md R57). -/
inductive Request where
  /-- `ReqRead`: read one word. -/
  | read (addr : Word)
  /-- `ReqWrite`: write one word. -/
  | write (addr : Word) (data : Word)
  /-- `ReqDone`: the run has ended; it has no response. -/
  | done
  deriving DecidableEq, Repr

/-- The messages from the MemoryStore to the Processor (20_memory.md R57). -/
inductive Response where
  /-- `RespData`: the answer to a legal read. -/
  | data (w : Word)
  /-- `RespAck`: the answer to a legal write. -/
  | ack
  /-- `RespFault`: the answer to a read or write whose address is outside memory. -/
  | fault
  deriving DecidableEq, Repr

/-- The channel slot (10_state.md R35, 20_memory.md R58). -/
inductive Slot where
  | idle
  | pending (req : Request)
  deriving DecidableEq, Repr

/-- The two ports of `Put` that produce output (42_rand_put.md R131). -/
inductive Port where
  /-- Port 1: the value as an integer. -/
  | integer
  /-- Port 2: the value as a character. -/
  | character
  deriving DecidableEq, Repr

/-- One event of the output stream (10_state.md R36): the port and the full Word (decision D9, log 20). -/
structure Event where
  port : Port
  value : Word
  deriving DecidableEq, Repr

/-- The run status (10_state.md R37). -/
inductive Status where
  | running
  | halted
  | faulted (kind : FaultKind)
  deriving DecidableEq, Repr

/-- Everything the spec gives the machine (10_state.md), the run's constant `T`, and two fields of the model's own. -/
structure State where
  /-- `PC` (R25). Between steps and while an instruction executes: the address `pc0` of its opcode word (R27, log 24). -/
  pc : Word
  /-- `SP` (R24). -/
  sp : Word
  /-- `AC` (R21). -/
  ac : Word
  /-- `X` (R22). -/
  x : Word
  /-- `Y` (R23). -/
  y : Word
  /-- `Mode` (R29). -/
  mode : Mode
  /-- `InInterrupt` (R30). -/
  inInterrupt : Bool
  /-- `InterruptCounter` (R31). -/
  interruptCounter : Word
  /-- `Mem[0..1999]` (R34). -/
  mem : Memory
  /-- The channel slot (R35). -/
  channel : Slot
  /-- `Out` (R36), the first event first. -/
  out : List Event
  /-- `Status` (R37). -/
  status : Status
  /-- `T` (R32): the run's constant timer threshold, which no step changes (log 5). -/
  timeToInterrupt : Word
  /-- MODEL'S OWN: how many draws the random source has answered (log 7). -/
  drawCount : Nat
  /-- MODEL'S OWN: the requests this step has sent on the channel, in order (log 11). -/
  requests : List Request
  deriving DecidableEq, Repr

/-- What stays observable when a step ends in a fatal fault (40_cycle.md R112): memory and `Out` as they stood
when the fault was raised, and (the model's own) the requests the step had sent. The registers are not observable
(decision D11, log 8). -/
structure Observed where
  mem : Memory
  out : List Event
  requests : List Request
  deriving DecidableEq, Repr

/-- Why the machine stops. The first three are the fatal faults of 60_exceptions.md R181, each with the `info` of
its raise (diagnostic only) and what stays observable; the last two are stuck states of the model. -/
inductive Fault where
  /-- Raised by `checkProt` for the operand of opcodes 2, 3, 4, 5, 7 in User mode (R182). The spec's own fault: safe. -/
  | memoryViolation (addr : Word) (seen : Observed)
  /-- Raised by `memRead` and `memWrite` when the MemoryStore answers `RespFault` (R183). The spec's own fault: safe. -/
  | outOfBounds (addr : Word) (seen : Observed)
  /-- Raised by `step` for an opcode word outside the defined set (R184). The spec's own fault: safe. -/
  | invalidInstruction (op : Word) (seen : Observed)
  /-- Raised by `step` when Status is not Running: no step is defined there (40_cycle.md R100). Stuck, safe (log 9). -/
  | notRunning (status : Status)
  /-- Raised by `send` when the slot is Pending, where the Processor may not send (20_memory.md R58), or by an access
  whose answer is no answer to it. Stuck, safe; no run reaches it (log 10). -/
  | channelMisuse (req : Request)
  deriving DecidableEq, Repr

/-- What the model gives no meaning to. -/
inductive Refusal where
  /-- Raised by no arm: an instruction without a meaning would be refused by its name. Safe. -/
  | notModelled (mnemonic : String)
  /-- Raised by `bootState` for a timer interval outside `1 .. 2^31 - 1` (00_scope.md R8, decision D15). Safe (log 6). -/
  | badInterval (t : Int)
  /-- Raised by `bootState` for an image with an address outside memory or a value that is no Word (00_scope.md R8,
  30_encoding.md R93). Safe (log 6). -/
  | badImage (image : List (Int × Int))
  deriving DecidableEq, Repr

/-- The state after reset (10_state.md R39) with an image that names nothing, so that every word reads
`config.fill` (log 3), and `T = 1000` (DESIGN CHOICE, log 5, unsafe). `bootState` gives the reset state of every other
image and interval. -/
def State.reset : State where
  pc := config.resetPc
  sp := config.userSpReset
  ac := 0
  x := 0
  y := 0
  mode := .user
  inInterrupt := false
  interruptCounter := 0
  mem := []
  channel := .idle
  out := []
  status := .running
  timeToInterrupt := 1000
  drawCount := 0
  requests := []

end Sys2Proof.Machine
end

