-- ==== Sys2Proof/Machine/Memory.lean ====
section
/-! DEFINITION. The MemoryStore (20_memory.md section 1): reading and writing the array, the bounds check, and its
answer to each message of the channel. It knows neither mode nor registers (R50). -/

namespace Sys2Proof.Machine

/-- The word at an address: what its cell holds, or `config.fill` where none is listed (20_memory.md R51, log 3). -/
def Memory.read : Memory → Nat → Word
  | [], _ => config.fill
  | (k, v) :: rest, a => if k = a then v else Memory.read rest a

/-- Set the word at an address and keep the canonical form: writing `config.fill` removes the cell. -/
def Memory.write : Memory → Nat → Word → Memory
  | [], a, w => if w = config.fill then [] else [(a, w)]
  | (k, v) :: rest, a, w =>
    if a < k then
      if w = config.fill then (k, v) :: rest else (a, w) :: (k, v) :: rest
    else if a = k then
      if w = config.fill then rest else (k, w) :: rest
    else (k, v) :: Memory.write rest a w

/-- The canonical form of cells whose addresses start at `lo` or above. -/
def Memory.wfFrom : Nat → Memory → Bool
  | _, [] => true
  | lo, (k, v) :: rest =>
    decide (lo ≤ k) && decide (k < config.memWords) && decide (v ≠ config.fill) && Memory.wfFrom (k + 1) rest

/-- The canonical form: addresses strictly rising and below `MEM_WORDS`, no cell equal to `config.fill`. -/
def Memory.wf (m : Memory) : Bool := Memory.wfFrom 0 m

/-- The bounds check (20_memory.md R52): the address, as a signed Word, is one of `0 .. MEM_WORDS - 1`. -/
def inBounds (a : Word) : Bool := decide (0 ≤ a.toInt ∧ a.toInt < config.memWords)

/-- The MemoryStore's handling of one message (20_memory.md R53, R54, R57): its response, where the message has
one, and the array afterwards. A failed write changes nothing. -/
def serve (r : Request) (m : Memory) : Option Response × Memory :=
  match r with
  | .read a => if inBounds a then (some (.data (m.read a.toNat)), m) else (some .fault, m)
  | .write a v => if inBounds a then (some .ack, m.write a.toNat v) else (some .fault, m)
  | .done => (none, m)

/-- A word put in memory from outside the machine, as the Loader does; nothing where the address is outside. -/
def Memory.place (m : Memory) (a : Word) (w : Word) : Memory :=
  if inBounds a then m.write a.toNat w else m

end Sys2Proof.Machine
end

