-- ==== Sys2Proof/Machine/Ops.lean ====
section
/-! DEFINITION. The shared operations: the channel and the memory access (20_memory.md), the protection check, the
stack helpers (40_cycle.md R105, R106), trap entry and trap return (60_exceptions.md R194, R197), the draw of `Rand`. -/

namespace Sys2Proof.Machine

/-- One outcome after another: a fault or a refusal ends it (60_exceptions.md R180: the statements after a `raise`
do not run). -/
def andThen {α β : Type} (o : Host.Outcome α Fault Refusal) (f : α → Host.Outcome β Fault Refusal) :
    Host.Outcome β Fault Refusal :=
  match o with
  | .next a => f a
  | .fault r => .fault r
  | .refused r => .refused r

/-- What stays observable if a fault is raised in this state (40_cycle.md R112). -/
def State.observed (s : State) : Observed where
  mem := s.mem
  out := s.out
  requests := s.requests

/-- The Processor sends a request: only when the slot is Idle (20_memory.md R58). -/
def send (r : Request) (s : State) : Host.Outcome State Fault Refusal :=
  match s.channel with
  | .idle => .next { s with channel := .pending r, requests := s.requests ++ [r] }
  | .pending _ => .fault (.channelMisuse r)

/-- The MemoryStore's turn (20_memory.md R58): it applies the pending request, answers, and the slot is Idle again. A
`ReqDone` is taken without an answer (R57, log 10). -/
def respond (s : State) : Option Response × State :=
  match s.channel with
  | .idle => (none, s)
  | .pending r => ((serve r s.mem).1, { s with mem := (serve r s.mem).2, channel := .idle })

/-- `MemRead(a)` (20_memory.md R53): one Read request and its response. -/
def memRead (a : Word) (s : State) : Host.Outcome (Word × State) Fault Refusal :=
  andThen (send (.read a) s) fun s1 =>
    match (respond s1).1 with
    | some (.data w) => .next (w, (respond s1).2)
    | some .fault => .fault (.outOfBounds a (respond s1).2.observed)
    | some .ack => .fault (.channelMisuse (.read a))
    | none => .fault (.channelMisuse (.read a))

/-- `MemWrite(a, v)` (20_memory.md R54): one Write request and its response. -/
def memWrite (a v : Word) (s : State) : Host.Outcome State Fault Refusal :=
  andThen (send (.write a v) s) fun s1 =>
    match (respond s1).1 with
    | some .ack => .next (respond s1).2
    | some .fault => .fault (.outOfBounds a (respond s1).2.observed)
    | some (.data _) => .fault (.channelMisuse (.write a v))
    | none => .fault (.channelMisuse (.write a v))

/-- `CheckProt(a)` (20_memory.md R62): in User mode an operand at or above `PROT_BASE` is a violation. The comparison
is signed: a negative operand passes. -/
def checkProt (a : Word) (s : State) : Host.Outcome State Fault Refusal :=
  if s.mode = .user ∧ config.protBase ≤ a.toInt then .fault (.memoryViolation a s.observed) else .next s

/-- `PushWord(v)` (40_cycle.md R105): decrement `SP`, then write; no protection check (log 15). -/
def pushWord (v : Word) (s : State) : Host.Outcome State Fault Refusal :=
  memWrite (s.sp - 1) v { s with sp := s.sp - 1 }

/-- `PopWord()` (40_cycle.md R106): read, then increment `SP`; no protection check (log 15). -/
def popWord (s : State) : Host.Outcome (Word × State) Fault Refusal :=
  andThen (memRead s.sp s) fun r => .next (r.1, { r.2 with sp := r.2.sp + 1 })

/-- `TrapEnter(vec)` (60_exceptions.md R194), the one entry sequence of `Int` and of the timer (log 18 for the timer):
Kernel mode, `SP` to the system stack, push the old `SP`, push `PC`, set `InInterrupt`, `PC` to the handler. -/
def trapEnter (vec : Word) (s : State) : Host.Outcome State Fault Refusal :=
  andThen (pushWord s.sp { s with mode := .kernel, sp := config.sysSpBase }) fun s1 =>
    andThen (pushWord s1.pc s1) fun s2 =>
      .next { s2 with inInterrupt := true, pc := vec }

/-- The return from a trap (46_system.md R166, 60_exceptions.md R197): pop `PC`, pop `SP`, User mode, `InInterrupt`
cleared; whatever the mode was (log 19). -/
def trapReturn (s : State) : Host.Outcome State Fault Refusal :=
  andThen (popWord s) fun r1 =>
    andThen (popWord r1.2) fun r2 =>
      .next { r2.2 with sp := r2.1, pc := r1.1, mode := .user, inInterrupt := false }

/-- `Draw()` (00_scope.md R10): the n-th answer of the random source, free in `RAND_LO .. RAND_HI` (42_rand_put.md R130,
log 7). -/
def draw (n : Nat) : Word :=
  BitVec.ofNat XLEN (config.randLo + (Config.randSource n).toNat % (config.randHi - config.randLo + 1))

/-- `Emit(port, v)` (00_scope.md R10): append an event to `Out`. -/
def emit (p : Port) (v : Word) (s : State) : State := { s with out := s.out ++ [{ port := p, value := v }] }

/-- The end of an instruction that is no control transfer: `PC` moves past its words (40_cycle.md R104). -/
def advance (words : Word) (s : State) : State := { s with pc := s.pc + words }

end Sys2Proof.Machine
end

