-- ==== Sys2Proof/Machine/Alu.lean ====
section
/-! DEFINITION. Arithmetic and register copies, opcodes 10 to 19, 25 and 26 (43_alu_copy.md). Sums and differences wrap
modulo 2^XLEN (R135, decision D2, log 2); no flag records anything (10_state.md R28). -/

namespace Sys2Proof.Machine

/-- `AddX` (R136). -/
def execAddX (s : State) : Host.Outcome State Fault Refusal := .next (advance 1 { s with ac := s.ac + s.x })

/-- `AddY` (R137). -/
def execAddY (s : State) : Host.Outcome State Fault Refusal := .next (advance 1 { s with ac := s.ac + s.y })

/-- `SubX` (R138). -/
def execSubX (s : State) : Host.Outcome State Fault Refusal := .next (advance 1 { s with ac := s.ac - s.x })

/-- `SubY` (R139). -/
def execSubY (s : State) : Host.Outcome State Fault Refusal := .next (advance 1 { s with ac := s.ac - s.y })

/-- `CopyToX` (R140). -/
def execCopyToX (s : State) : Host.Outcome State Fault Refusal := .next (advance 1 { s with x := s.ac })

/-- `CopyFromX` (R141). -/
def execCopyFromX (s : State) : Host.Outcome State Fault Refusal := .next (advance 1 { s with ac := s.x })

/-- `CopyToY` (R142). -/
def execCopyToY (s : State) : Host.Outcome State Fault Refusal := .next (advance 1 { s with y := s.ac })

/-- `CopyFromY` (R143). -/
def execCopyFromY (s : State) : Host.Outcome State Fault Refusal := .next (advance 1 { s with ac := s.y })

/-- `CopyToSP` (R144): no check of any kind, in either mode. -/
def execCopyToSP (s : State) : Host.Outcome State Fault Refusal := .next (advance 1 { s with sp := s.ac })

/-- `CopyFromSP` (R145). -/
def execCopyFromSP (s : State) : Host.Outcome State Fault Refusal := .next (advance 1 { s with ac := s.sp })

/-- `IncX` (R146). -/
def execIncX (s : State) : Host.Outcome State Fault Refusal := .next (advance 1 { s with x := s.x + 1 })

/-- `DecX` (R147). -/
def execDecX (s : State) : Host.Outcome State Fault Refusal := .next (advance 1 { s with x := s.x - 1 })

end Sys2Proof.Machine
end

