-- ==== Sys2Proof/Machine/Flags.lean ====
section
/-! DEFINITION. There are no status flags and no condition codes (10_state.md R28): no instruction records one. The one
condition of the machine is the value of `AC` against zero, tested by the two conditional jumps. -/

namespace Sys2Proof.Machine

/-- The condition of `JumpIfEqual`: `AC = 0` (44_control.md R152); `JumpIfNotEqual` tests its negation (R153). -/
def acIsZero (s : State) : Bool := decide (s.ac = 0)

/-- The two ways out of a conditional jump (44_control.md R152, R153): the target, or past the two words. -/
def jumpWhen (cond : Bool) (addr : Word) (s : State) : State :=
  if cond then { s with pc := addr } else advance 2 s

end Sys2Proof.Machine
end

