-- ==== Sys2Proof/Machine/Control.lean ====
section
/-! DEFINITION. Control transfers, opcodes 20 to 24 (44_control.md). Targets are absolute and not validated (R150, log 16). -/

namespace Sys2Proof.Machine

/-- `Jump addr` (R151). -/
def execJump (addr : Word) (s : State) : Host.Outcome State Fault Refusal := .next (jumpWhen true addr s)

/-- `JumpIfEqual addr` (R152): taken when `AC = 0`. -/
def execJumpIfEqual (addr : Word) (s : State) : Host.Outcome State Fault Refusal :=
  .next (jumpWhen (acIsZero s) addr s)

/-- `JumpIfNotEqual addr` (R153): taken when `AC != 0`. -/
def execJumpIfNotEqual (addr : Word) (s : State) : Host.Outcome State Fault Refusal :=
  .next (jumpWhen (!acIsZero s) addr s)

/-- `Call addr` (R154): push the address after the operand, `pc0 + 2`, then jump. -/
def execCall (addr : Word) (s : State) : Host.Outcome State Fault Refusal :=
  andThen (pushWord (s.pc + 2) s) fun s1 => .next { s1 with pc := addr }

/-- `Ret` (R155): the popped word becomes `PC`, whatever it is. -/
def execRet (s : State) : Host.Outcome State Fault Refusal :=
  andThen (popWord s) fun r => .next { r.2 with pc := r.1 }

end Sys2Proof.Machine
end

