-- ==== Sys2Proof/Machine/Operands.lean ====
section
/-! DEFINITION. The operand forms (41_load_store.md): absolute, memory-indirect, indexed by `X` or `Y`, `SP` indexed by
`X`. Sums wrap (43_alu_copy.md R135, log 2). The immediate and the jump target are the operand word itself. -/

namespace Sys2Proof.Machine

/-- The address of the forms indexed by `X`: `addr +w X` (41_load_store.md R123). -/
def idxXAddr (addr : Word) (s : State) : Word := addr + s.x

/-- The address of the form indexed by `Y`: `addr +w Y` (41_load_store.md R124). -/
def idxYAddr (addr : Word) (s : State) : Word := addr + s.y

/-- The address of the form relative to the stack: `SP +w X` (41_load_store.md R125). -/
def spXAddr (s : State) : Word := s.sp + s.x

/-- The end common to the loads from memory: read the word at an address into `AC`, move `PC` past the instruction's
words. The address is not protection-checked here (20_memory.md R64). -/
def loadAc (addr words : Word) (s : State) : Host.Outcome State Fault Refusal :=
  andThen (memRead addr s) fun r => .next (advance words { r.2 with ac := r.1 })

end Sys2Proof.Machine
end

