-- ==== Sys2Proof/Machine/LoadStore.lean ====
section
/-! DEFINITION. Loads and the store, opcodes 1 to 7 (41_load_store.md). The operand word is already fetched. -/

namespace Sys2Proof.Machine

/-- `LoadValue imm` (R120): `AC` gets the operand itself; it is no address and is not checked. -/
def execLoadValue (imm : Word) (s : State) : Host.Outcome State Fault Refusal :=
  .next (advance 2 { s with ac := imm })

/-- `LoadAddr addr` (R121): protection check, then `AC` gets `Mem[addr]`. -/
def execLoadAddr (addr : Word) (s : State) : Host.Outcome State Fault Refusal :=
  andThen (checkProt addr s) fun s1 => loadAc addr 2 s1

/-- `LoadInd addr` (R122): protection check on `addr` alone; the pointer read there is not checked. -/
def execLoadInd (addr : Word) (s : State) : Host.Outcome State Fault Refusal :=
  andThen (checkProt addr s) fun s1 => andThen (memRead addr s1) fun r => loadAc r.1 2 r.2

/-- `LoadIdxX addr` (R123): protection check on `addr` before `X` is added. -/
def execLoadIdxX (addr : Word) (s : State) : Host.Outcome State Fault Refusal :=
  andThen (checkProt addr s) fun s1 => loadAc (idxXAddr addr s1) 2 s1

/-- `LoadIdxY addr` (R124): protection check on `addr` before `Y` is added. -/
def execLoadIdxY (addr : Word) (s : State) : Host.Outcome State Fault Refusal :=
  andThen (checkProt addr s) fun s1 => loadAc (idxYAddr addr s1) 2 s1

/-- `LoadSpX` (R125): no protection check. -/
def execLoadSpX (s : State) : Host.Outcome State Fault Refusal :=
  loadAc (spXAddr s) 1 s

/-- `Store addr` (R126): protection check, then `Mem[addr]` gets `AC`. -/
def execStore (addr : Word) (s : State) : Host.Outcome State Fault Refusal :=
  andThen (checkProt addr s) fun s1 => andThen (memWrite addr s1.ac s1) fun s2 => .next (advance 2 s2)

end Sys2Proof.Machine
end

