-- ==== Sys2Proof/Machine/RandPut.lean ====
section
/-! DEFINITION. `Rand` and `Put`, opcodes 8 and 9 (42_rand_put.md), and what an output event means to the host. -/

namespace Sys2Proof.Machine

/-- `Rand` (R130): `AC` gets the next draw, a free value in 1..100 (log 7). -/
def execRand (s : State) : Host.Outcome State Fault Refusal :=
  .next (advance 1 { s with ac := draw s.drawCount, drawCount := s.drawCount + 1 })

/-- `Put port` (R131): port 1 and port 2 emit `AC`; any other port, negative ones too, does nothing but advance `PC`. -/
def execPut (port : Word) (s : State) : Host.Outcome State Fault Refusal :=
  if port = 1 then .next (advance 2 (emit .integer s.ac s))
  else if port = 2 then .next (advance 2 (emit .character s.ac s))
  else .next (advance 2 s)

/-- What the host shows for an event, apart from anything it puts between two (R131). -/
inductive Shown where
  /-- The value as a decimal integer. -/
  | decimal (n : Int)
  /-- A single character, by its code. -/
  | character (code : BitVec 8)
  deriving DecidableEq, Repr

/-- The meaning of an event (R131): the signed value, or the character whose code is `v[7:0]` (decision D9, log 20). -/
def shown (e : Event) : Shown :=
  match e.port with
  | .integer => .decimal e.value.toInt
  | .character => .character (e.value.extractLsb' 0 8)

end Sys2Proof.Machine
end

