-- ==== Sys2Proof/Machine/Stack.lean ====
section
/-! DEFINITION. `Push` and `Pop`, opcodes 27 and 28 (45_stack.md). -/

namespace Sys2Proof.Machine

/-- `Push` (R160): push `AC` on the stack `SP` points to. -/
def execPush (s : State) : Host.Outcome State Fault Refusal :=
  andThen (pushWord s.ac s) fun s1 => .next (advance 1 s1)

/-- `Pop` (R161): pop the top of the stack into `AC`; the memory word stays. -/
def execPop (s : State) : Host.Outcome State Fault Refusal :=
  andThen (popWord s) fun r => .next (advance 1 { r.2 with ac := r.1 })

end Sys2Proof.Machine
end

