-- ==== Sys2Proof/Machine/System.lean ====
section
/-! DEFINITION. `Int`, `IRet` and `Halt`, opcodes 29, 30 and 50 (46_system.md). None is privileged (60_exceptions.md R202,
log 19). -/

namespace Sys2Proof.Machine

/-- `Int` (R165): while an interrupt is in service it only advances `PC`; otherwise it takes the trap, with the address
after the `Int` as the saved `PC` (decision D6, log 17). -/
def execInt (s : State) : Host.Outcome State Fault Refusal :=
  if s.inInterrupt then .next (advance 1 s) else trapEnter config.intVec (advance 1 s)

/-- `IRet` (R166): the return from either kind of interrupt; it tests neither `Mode` nor `InInterrupt`. -/
def execIRet (s : State) : Host.Outcome State Fault Refusal := trapReturn s

/-- `Halt` (R167): Status becomes Halted and `ReqDone` is sent; no register and no memory word changes, and `PC` keeps the
address of the `Halt` (decision D12, log 12). -/
def execHalt (s : State) : Host.Outcome State Fault Refusal :=
  andThen (send .done { s with status := .halted }) fun s1 => .next (respond s1).2

end Sys2Proof.Machine
end

