-- ==== Sys2Proof/Machine/Dispatch.lean ====
section
/-! DEFINITION. `Execute(op)` (40_cycle.md R104): one arm per instruction. -/

namespace Sys2Proof.Machine

def exec (i : Instr) (s : State) : Host.Outcome State Fault Refusal :=
  match i with
  | .loadValue imm => Sys2Proof.Machine.execLoadValue imm s
  | .loadAddr addr => Sys2Proof.Machine.execLoadAddr addr s
  | .loadInd addr => Sys2Proof.Machine.execLoadInd addr s
  | .loadIdxX addr => Sys2Proof.Machine.execLoadIdxX addr s
  | .loadIdxY addr => Sys2Proof.Machine.execLoadIdxY addr s
  | .loadSpX => Sys2Proof.Machine.execLoadSpX s
  | .store addr => Sys2Proof.Machine.execStore addr s
  | .rand => Sys2Proof.Machine.execRand s
  | .put port => Sys2Proof.Machine.execPut port s
  | .addX => Sys2Proof.Machine.execAddX s
  | .addY => Sys2Proof.Machine.execAddY s
  | .subX => Sys2Proof.Machine.execSubX s
  | .subY => Sys2Proof.Machine.execSubY s
  | .copyToX => Sys2Proof.Machine.execCopyToX s
  | .copyFromX => Sys2Proof.Machine.execCopyFromX s
  | .copyToY => Sys2Proof.Machine.execCopyToY s
  | .copyFromY => Sys2Proof.Machine.execCopyFromY s
  | .copyToSP => Sys2Proof.Machine.execCopyToSP s
  | .copyFromSP => Sys2Proof.Machine.execCopyFromSP s
  | .jump addr => Sys2Proof.Machine.execJump addr s
  | .jumpIfEqual addr => Sys2Proof.Machine.execJumpIfEqual addr s
  | .jumpIfNotEqual addr => Sys2Proof.Machine.execJumpIfNotEqual addr s
  | .call addr => Sys2Proof.Machine.execCall addr s
  | .ret => Sys2Proof.Machine.execRet s
  | .incX => Sys2Proof.Machine.execIncX s
  | .decX => Sys2Proof.Machine.execDecX s
  | .push => Sys2Proof.Machine.execPush s
  | .pop => Sys2Proof.Machine.execPop s
  | .int => Sys2Proof.Machine.execInt s
  | .iRet => Sys2Proof.Machine.execIRet s
  | .halt => Sys2Proof.Machine.execHalt s

end Sys2Proof.Machine
end

