-- ==== Sys2Proof/Machine/Timer.lean ====
section
/-! DEFINITION. The timer check at the end of a step whose instruction retired (60_exceptions.md R190 to R193). -/

namespace Sys2Proof.Machine

/-- The value of `InInterrupt` that decides whether the instruction is counted (40_cycle.md R109): the one sampled
before it, unless the switch `TIMER_SAMPLE` says after (log 13). -/
def countGate (iflag0 : Bool) (s : State) : Bool :=
  match config.timerSample with
  | .before => iflag0
  | .after => s.inInterrupt

/-- A timer event that has fallen due (60_exceptions.md R190): taken when no interrupt is in service (R191), else dropped
(R192), the counter going back to 0 in either case (for the drop: decision D5, log 14). -/
def timerDue (s : State) : Host.Outcome State Fault Refusal :=
  if s.inInterrupt = false then trapEnter config.timerVec { s with interruptCounter := 0 }
  else if config.dropResetsCounter then .next { s with interruptCounter := 0 }
  else .next s

/-- `TimerCheck(iflag0)` (60_exceptions.md R190). -/
def timerCheck (iflag0 : Bool) (s : State) : Host.Outcome State Fault Refusal :=
  if countGate iflag0 s = false then
    if s.interruptCounter + 1 = s.timeToInterrupt then timerDue { s with interruptCounter := s.interruptCounter + 1 }
    else .next { s with interruptCounter := s.interruptCounter + 1 }
  else .next s

end Sys2Proof.Machine
end

