-- ==== Sys2Proof/Machine/Fetch.lean ====
section
/-! DEFINITION. The parts of the step (40_cycle.md R100): the fetch and decode, and what follows Execute. -/

namespace Sys2Proof.Machine

/-- `FetchOperand()` (40_cycle.md R103): the word after the opcode, not protection-checked. -/
def fetchOperand (s : State) : Host.Outcome (Word × State) Fault Refusal := memRead (s.pc + 1) s

/-- Fetch and decode (40_cycle.md R101 to R103, order R111): the opcode word, never protection-checked; an unknown
opcode raises `InvalidInstruction` before any operand fetch; then the operand word where the format has one. -/
def fetchInstr (s : State) : Host.Outcome (Instr × State) Fault Refusal :=
  andThen (memRead s.pc s) fun r =>
    match openOpcode r.1 with
    | none => .fault (.invalidInstruction r.1 r.2.observed)
    | some (.op i) => .next (i, r.2)
    | some (.opArg withOperand) => andThen (fetchOperand r.2) fun q => .next (withOperand q.1, q.2)

/-- After Execute: the timer check, unless the run has ended (a `Halt` does not retire, 40_cycle.md R107). -/
def afterExec (iflag0 : Bool) (s : State) : Host.Outcome State Fault Refusal :=
  match s.status with
  | .running => timerCheck iflag0 s
  | .halted => .next s
  | .faulted _ => .next s

/-- One step of a running machine (40_cycle.md R100): `InInterrupt` is sampled before the fetch. -/
def runStep (s : State) : Host.Outcome State Fault Refusal :=
  andThen (fetchInstr { s with requests := [] }) fun r =>
    andThen (exec r.1 r.2) fun t => afterExec s.inInterrupt t

/-- The machine with the words of an instruction put at `PC` from outside (log 22). -/
def placeWords (ws : List Word) (a : Word) (m : Memory) : Memory :=
  match ws with
  | [] => m
  | w :: rest => placeWords rest (a + 1) (m.place a w)

end Sys2Proof.Machine
end

