-- ==== Sys2Proof/Machine/Step.lean ====
section
/-! DEFINITION. One step of the machine. -/

namespace Sys2Proof.Machine

/-- `Step()` (40_cycle.md R100), defined only when Status is Running (log 9). -/
def step (s : State) : Host.Outcome State Fault Refusal :=
  match s.status with
  | .running => runStep s
  | .halted => .fault (.notRunning .halted)
  | .faulted k => .fault (.notRunning (.faulted k))

/-- The state with the instruction whose bits are `w` (numbered as spec/opcode_table.json numbers them, the bits above
`nbits` zero) stored at `PC`, where the next step fetches it: the load of a program from outside the machine (log 22). -/
def State.withFetchWord (s : State) (nbits w : Nat) : State :=
  { s with mem := placeWords (tableWords nbits w) s.pc s.mem }

end Sys2Proof.Machine
end

