-- ==== Sys2Proof/WellFormed.lean ====
section
/-! DEFINITION. Checks on what a run is given. An instruction has nothing to check as a term: its one operand is a
whole Word with the full range (30_encoding.md R88), so every term of `Instr` is encodable. What can be ill-formed
is the place an instruction stands at, and the two inputs of a run: the image (R8, R93) and the timer interval (R8). -/

namespace Sys2Proof

/-- The words of instruction `i`, its opcode at address `pc0`, lie inside memory (30_encoding.md R82: a two-word
instruction at 1999 does not). -/
def Instr.fitsAt (i : Instr) (pc0 : Word) : Bool :=
  decide (0 ≤ pc0.toInt ∧ pc0.toInt + (formatOf i).words ≤ config.memWords)

/-- An initial memory image as the Loader's result (00_scope.md R8): address and value pairs, a later pair standing
over an earlier one for the same address; every address it does not name holds `config.fill` (decision D3). -/
abbrev Image : Type := List (Int × Int)

/-- One entry of an image is acceptable: the address is one of memory and the value fits a Word (R8; R93). -/
def Image.entryOk (e : Int × Int) : Bool :=
  decide (0 ≤ e.1 ∧ e.1 < config.memWords) && Word.fits e.2

/-- An image is acceptable when each of its entries is. -/
def Image.ok (image : Image) : Bool := image.all Image.entryOk

/-- A timer interval is acceptable: `1 <= T <= 2^31 - 1` (00_scope.md R8, decision D15). -/
def intervalOk (t : Int) : Bool := decide (1 ≤ t ∧ t ≤ Word.maxInt)

end Sys2Proof
end

