-- ==== Sys2Proof/Machine/Boot.lean ====
section
/-! DEFINITION. The host's side of a run: the reset state of an image and an interval, and the exit code. -/

namespace Sys2Proof.Machine

/-- The memory an image makes (00_scope.md R8), a later entry standing over an earlier one. -/
def imageMemory (image : Image) : Memory :=
  image.foldl (fun m e => m.write e.1.toNat (BitVec.ofInt XLEN e.2)) []

/-- The one initial state of `(IMAGE, T)` (70_reset_and_hazards.md R210, 10_state.md R39): the reset state with the
image as memory and the interval as `T`. An interval or an image the spec does not admit is refused (00_scope.md R8,
30_encoding.md R93, log 6). -/
def bootState (image : Image) (t : Int) : Host.Outcome State Fault Refusal :=
  if intervalOk t = false then .refused (.badInterval t)
  else if image.ok = false then .refused (.badImage image)
  else .next { State.reset with mem := imageMemory image, timeToInterrupt := BitVec.ofInt XLEN t }

/-- The exit code the host sees at the end of a run (10_state.md R37, 40_cycle.md R112): 0 at Halted, a non-zero free value
at a fault (log 21), none while it runs. -/
def exitCode (st : Status) : Option Nat :=
  match st with
  | .running => none
  | .halted => some 0
  | .faulted k => some (Config.faultExitCode k + 1)

/-- The Status the spec gives a raised fault (60_exceptions.md R180): Faulted of its kind; none for the model's own stuck
states. -/
def faultStatus (f : Fault) : Option Status :=
  match f with
  | .memoryViolation _ _ => some (.faulted .memoryViolation)
  | .outOfBounds _ _ => some (.faulted .outOfBounds)
  | .invalidInstruction _ _ => some (.faulted .invalidInstruction)
  | .notRunning _ => none
  | .channelMisuse _ => none

/-- What stays observable after a raised fault (40_cycle.md R112); none for the model's own stuck states. -/
def faultSeen (f : Fault) : Option Observed :=
  match f with
  | .memoryViolation _ seen => some seen
  | .outOfBounds _ seen => some seen
  | .invalidInstruction _ seen => some seen
  | .notRunning _ => none
  | .channelMisuse _ => none

/-- `Status` after a step (10_state.md R37). -/
def statusAfter (o : Host.Outcome State Fault Refusal) : Option Status :=
  match o with
  | .next t => some t.status
  | .fault f => faultStatus f
  | .refused _ => none

end Sys2Proof.Machine
end

