-- ==== Sys2Proof/Safety.lean ====
section
/-! DEFINITION. The terms claims are stated in: the invariant of the machine, when it can take a step, where an
instruction stands, what an image says. -/

namespace Sys2Proof.Machine

/-- What holds between the steps of every run. -/
structure Inv (s : State) : Prop where
  /-- `Mode = Kernel` exactly when `InInterrupt` (10_state.md R33). -/
  modeService : s.mode = .kernel ↔ s.inInterrupt = true
  /-- The slot is Idle (10_state.md R35). -/
  channelIdle : s.channel = .idle
  /-- Memory is in its canonical form. -/
  memWf : s.mem.wf = true
  /-- The counter is not negative (10_state.md R31). -/
  counterNonneg : 0 ≤ s.interruptCounter.toInt
  /-- The counter is below `T` between steps (10_state.md R31), and so `T` is positive (R32). -/
  counterBelow : s.interruptCounter.toInt < s.timeToInterrupt.toInt

/-- The machine can take a step: Status is Running and the channel slot Idle. -/
structure Ready (s : State) : Prop where
  running : s.status = .running
  channelIdle : s.channel = .idle

/-- The words stand in memory from address `a` on, all of them inside it. -/
def WordsAt (m : Memory) : Word → List Word → Prop
  | _, [] => True
  | a, w :: rest => inBounds a = true ∧ m.read a.toNat = w ∧ WordsAt m (a + 1) rest

/-- The words of instruction `i` stand at `PC`. -/
def InstrAt (i : Instr) (s : State) : Prop := WordsAt s.mem s.pc (encode i)

/-- The requests that fetch instruction `i` at `pc0` (20_memory.md section 7): the opcode, then the operand if any. -/
def fetchRequests (i : Instr) (pc0 : Word) : List Request :=
  match formatOf i with
  | .op => [.read pc0]
  | .opArg => [.read pc0, .read (pc0 + 1)]

/-- An address is one of memory, as 20_memory.md R52 words it. -/
def InMemory (a : Word) : Prop := 0 ≤ a.toInt ∧ a.toInt ≤ 1999

/-- An operand that `CheckProt` refuses in a state (20_memory.md R62). -/
def Violates (a : Word) (s : State) : Prop := s.mode = .user ∧ 1000 ≤ a.toInt

/-- `i` as a two-word instruction at 1999: its operand fetch at 2000 raises `OutOfBounds(2000)` (30_encoding.md R82). -/
def OperandFetchFaults (i : Instr) : Prop :=
  ∀ s : State, Ready s → s.pc = 1999 → s.mem.read 1999 = opcodeOf i →
    step s = .fault (.outOfBounds 2000 { mem := s.mem, out := s.out, requests := [.read 1999, .read 2000] })

/-- `i` is the two-word instruction `op, operand`: its words, the two reads that fetch it, and its operand fetch at 1999. -/
def TwoWords (i : Instr) (op operand : Word) : Prop :=
  encode i = [op, operand] ∧ (∀ pc0, fetchRequests i pc0 = [.read pc0, .read (pc0 + 1)]) ∧ OperandFetchFaults i

/-- The value an image gives an address (00_scope.md R8): that of the last entry that names it, else 0. -/
def imageValue (image : Image) (a : Int) : Int :=
  match image.reverse.find? (fun e => decide (e.1 = a)) with
  | some e => e.2
  | none => 0

/-- A word is one of the 31 opcodes: 1 to 30, or 50 (30_encoding.md R86). -/
def DefinedOpcode (w : Word) : Prop := 1 ≤ w.toInt ∧ w.toInt ≤ 30 ∨ w.toInt = 50

end Sys2Proof.Machine
end

