-- ==== Sys2Proof/Certificates/Slice0/Obligations.lean ====
section
/-! DEFINITION. The statements for the provers. A docstring names the rule of spec/ a statement formalises, and the
decision of the spec (D<n>) with its log entry where the statement rests on one. -/

open Sys2Proof Sys2Proof.Machine

/-- 10_state.md R39 for the model's reset state: every register, the mode, the counter, the slot, the output and the
status; every memory word reads 0 (decision D3, log 3). `T` is left out: its value at `State.reset` is the model's (log 5). -/
def Obligations.ResetStateValues : Prop :=
  State.reset.pc = 0 ∧ State.reset.sp = 999 ∧ State.reset.ac = 0 ∧ State.reset.x = 0 ∧ State.reset.y = 0 ∧
    State.reset.mode = .user ∧ State.reset.inInterrupt = false ∧ State.reset.interruptCounter = 0 ∧
    State.reset.channel = .idle ∧ State.reset.out = [] ∧ State.reset.status = .running ∧
    ∀ a : Nat, State.reset.mem.read a = 0

/-- 10_state.md R39, 00_scope.md R8: for every admissible image and interval there is one initial state, with the reset
values, the image as memory (0 where it names no value: decision D3, log 3) and the interval as `T` (log 5). -/
def Obligations.BootStateValues : Prop :=
  ∀ (image : Image) (t : Int), 1 ≤ t → t ≤ 2147483647 →
    (∀ e ∈ image, 0 ≤ e.1 ∧ e.1 ≤ 1999 ∧ -2147483648 ≤ e.2 ∧ e.2 ≤ 2147483647) →
    ∃ s, bootState image t = .next s ∧ s.pc = 0 ∧ s.sp = 999 ∧ s.ac = 0 ∧ s.x = 0 ∧ s.y = 0 ∧ s.mode = .user ∧
      s.inInterrupt = false ∧ s.interruptCounter = 0 ∧ s.channel = .idle ∧ s.out = [] ∧ s.status = .running ∧
      s.timeToInterrupt.toInt = t ∧
      ∀ a : Int, 0 ≤ a → a ≤ 1999 → (s.mem.read a.toNat).toInt = imageValue image a

/-- 00_scope.md R8, 30_encoding.md R93 by the decisions D15 and D19 (log 6): an interval outside `1 .. 2^31 - 1` is refused,
and so is an image with an address outside memory or a value that is no Word. -/
def Obligations.BootRefusesBadInputs : Prop :=
  ∀ (image : Image) (t : Int),
    (t < 1 ∨ 2147483647 < t → bootState image t = .refused (.badInterval t)) ∧
    (1 ≤ t → t ≤ 2147483647 →
      (∃ e ∈ image, e.1 < 0 ∨ 1999 < e.1 ∨ e.2 < -2147483648 ∨ 2147483647 < e.2) →
      bootState image t = .refused (.badImage image))

/-- The invariant holds at the model's reset state, the base case of `StepKeepsInvariant` (10_state.md R31, R33, R35, R39). Its clause
that the counter is below `T` holds there by the model's own `T = 1000` (log 5), and the canonical form is the model's (log 4). -/
def Obligations.ResetMeetsInvariant : Prop := Inv State.reset

/-- Every initial state of a run meets the invariant and can take a step (10_state.md R31, R33, R35, R39). Its clause that the counter is
below `T` rests on the refusal of every other interval (decision D15, log 6), and the canonical form is the model's (log 4). -/
def Obligations.BootMeetsInvariant : Prop :=
  ∀ (image : Image) (t : Int) (s : State), bootState image t = .next s → Inv s ∧ Ready s

/-- 10_state.md R31, R33, R35 as one invariant that every step keeps, from every state that has it: Kernel exactly while
an interrupt is in service, the slot Idle between steps, the counter in `0 .. T - 1`, memory in its canonical form. It
rests on the spec's decisions D5 and D17 (logs 13, 14); that the slot is Idle after a `Halt` too is the model's choice (log 10),
and so is the canonical form (log 4). -/
def Obligations.StepKeepsInvariant : Prop :=
  ∀ s t : State, Inv s → step s = .next t → Inv t

/-- 30_encoding.md R85, whole: for each of the 31 opcodes its words, written out from the opcode map, and the instruction they
are; the two-word ones with one operand each. -/
def Obligations.OpcodeWordsDecode : Prop :=
  decode [0x00000001#32, 0xFFFFFFF9#32] = .ok (.loadValue (-7), []) ∧
    decode [0x00000002#32, 0x000003E7#32] = .ok (.loadAddr 999, []) ∧
    decode [0x00000003#32, 0x0000000A#32] = .ok (.loadInd 10, []) ∧
    decode [0x00000004#32, 0x00000384#32] = .ok (.loadIdxX 900, []) ∧
    decode [0x00000005#32, 0x0000003C#32] = .ok (.loadIdxY 60, []) ∧
    decode [0x00000006#32] = .ok (.loadSpX, []) ∧
    decode [0x00000007#32, 0x000003E7#32] = .ok (.store 999, []) ∧
    decode [0x00000008#32] = .ok (.rand, []) ∧
    decode [0x00000009#32, 0x00000002#32] = .ok (.put 2, []) ∧
    decode [0x0000000A#32] = .ok (.addX, []) ∧
    decode [0x0000000B#32] = .ok (.addY, []) ∧
    decode [0x0000000C#32] = .ok (.subX, []) ∧
    decode [0x0000000D#32] = .ok (.subY, []) ∧
    decode [0x0000000E#32] = .ok (.copyToX, []) ∧
    decode [0x0000000F#32] = .ok (.copyFromX, []) ∧
    decode [0x00000010#32] = .ok (.copyToY, []) ∧
    decode [0x00000011#32] = .ok (.copyFromY, []) ∧
    decode [0x00000012#32] = .ok (.copyToSP, []) ∧
    decode [0x00000013#32] = .ok (.copyFromSP, []) ∧
    decode [0x00000014#32, 0x000003E8#32] = .ok (.jump 1000, []) ∧
    decode [0x00000015#32, 0x00000028#32] = .ok (.jumpIfEqual 40, []) ∧
    decode [0x00000016#32, 0x00000028#32] = .ok (.jumpIfNotEqual 40, []) ∧
    decode [0x00000017#32, 0x000000C8#32] = .ok (.call 200, []) ∧
    decode [0x00000018#32] = .ok (.ret, []) ∧
    decode [0x00000019#32] = .ok (.incX, []) ∧
    decode [0x0000001A#32] = .ok (.decX, []) ∧
    decode [0x0000001B#32] = .ok (.push, []) ∧
    decode [0x0000001C#32] = .ok (.pop, []) ∧
    decode [0x0000001D#32] = .ok (.int, []) ∧
    decode [0x0000001E#32] = .ok (.iRet, []) ∧
    decode [0x00000032#32] = .ok (.halt, [])

/-- Decoding and encoding agree, both ways and for every instruction: a list of words decodes to `i` with `rest` left
exactly when it is the words of `i` followed by `rest` (30_encoding.md R80 to R82, R88). -/
def Obligations.DecodeIsInverseOfEncode : Prop :=
  ∀ (ws : List Word) (i : Instr) (rest : List Word), decode ws = .ok (i, rest) ↔ ws = encode i ++ rest

/-- 60_exceptions.md R184 (and 30_encoding.md section 3): a fetched word that is not one of `1..30` and not 50 raises InvalidInstruction,
in either mode and inside a handler, after the opcode fetch alone, with memory and `Out` unchanged; the run's status is
Faulted(InvalidInstruction) and its exit code is not 0. And nothing else raises it. -/
def Obligations.UndefinedOpcodesFault : Prop :=
  (∀ s : State, Ready s → InMemory s.pc → ¬DefinedOpcode (s.mem.read s.pc.toNat) →
    step s = .fault (.invalidInstruction (s.mem.read s.pc.toNat)
      { mem := s.mem, out := s.out, requests := [.read s.pc] }) ∧
    statusAfter (step s) = some (.faulted .invalidInstruction) ∧
    ∀ c, exitCode (.faulted .invalidInstruction) = some c → c ≠ 0) ∧
  (∀ (s : State) (w : Word) (seen : Observed), step s = .fault (.invalidInstruction w seen) →
    w = s.mem.read s.pc.toNat ∧ ¬DefinedOpcode w)

/-- A step runs the decoded instruction (40_cycle.md R100, R104): when the words of `i` stand at `PC`, the step is `exec i`
after the fetch's requests, followed by the timer check of `afterExec`, with `InInterrupt` as it was before the step. -/
def Obligations.StepRunsDecoded : Prop :=
  ∀ (s : State) (i : Instr), Ready s → InstrAt i s →
    step s =
      match exec i { s with requests := fetchRequests i s.pc } with
      | .next t => afterExec s.inInterrupt t
      | .fault f => .fault f
      | .refused r => .refused r

/-- 40_cycle.md R101, R103: the opcode fetch is one read at `PC`, bounds-checked (a `PC` outside `0..1999` raises
`OutOfBounds(pc0)`) and never protection-checked: in either mode the word at a `PC` in `0..1999` is fetched and run. Every
`OP_ARG` instruction's first action is `FetchOperand()`, one read at `pc0 + 1`, unchecked too, which only `pc0 = 1999` makes fault. -/
def Obligations.FetchesAreOnlyBoundsChecked : Prop :=
  (∀ s : State, Ready s → ¬InMemory s.pc →
    step s = .fault (.outOfBounds s.pc { mem := s.mem, out := s.out, requests := [.read s.pc] })) ∧
  (∀ (s : State) (i : Instr), Ready s → InMemory s.pc → formatOf i = .op → s.mem.read s.pc.toNat = opcodeOf i →
    step s = andThen (exec i { s with requests := [.read s.pc] }) fun t => afterExec s.inInterrupt t) ∧
  (∀ (s : State) (withOperand : Word → Instr), Ready s → InMemory s.pc →
    openOpcode (s.mem.read s.pc.toNat) = some (.opArg withOperand) →
    step s =
      andThen (fetchOperand { s with requests := [.read s.pc] }) fun q =>
        andThen (exec (withOperand q.1) q.2) fun t => afterExec s.inInterrupt t) ∧
  (∀ s : State, s.channel = .idle →
    (0 ≤ s.pc.toInt → s.pc.toInt ≤ 1998 →
      fetchOperand s =
        .next (s.mem.read (s.pc.toNat + 1), { s with requests := s.requests ++ [.read (s.pc + 1)] })) ∧
    (s.pc = 1999 → fetchOperand s =
      .fault (.outOfBounds 2000 { mem := s.mem, out := s.out, requests := s.requests ++ [.read 2000] })))

/-- 40_cycle.md R100, R108: no step is defined unless Status is Running; the model says so by a stuck fault (log 9). -/
def Obligations.StoppedMachineHasNoStep : Prop :=
  ∀ s : State, s.status ≠ .running → step s = .fault (.notRunning s.status)

/-- 41_load_store.md R120: `LoadValue` puts its operand in `AC`, whatever it is and in either mode, and leaves everything
else but `PC`; its operand fetch faults at 1999. -/
def Obligations.LoadValueResult : Prop :=
  ∀ imm : Word,
    (∀ s : State, exec (.loadValue imm) s = .next { s with ac := imm, pc := s.pc + 2 }) ∧
    TwoWords (.loadValue imm) 1 imm

/-- 41_load_store.md R121: `LoadAddr` faults on a protection violation, then on an address outside memory, and otherwise
puts `Mem[addr]` in `AC` and leaves everything else but `PC`. -/
def Obligations.LoadAddrResult : Prop :=
  ∀ addr : Word,
    (∀ s : State, s.channel = .idle →
      (Violates addr s → exec (.loadAddr addr) s = .fault (.memoryViolation addr s.observed)) ∧
      (¬Violates addr s → ¬InMemory addr → exec (.loadAddr addr) s =
        .fault (.outOfBounds addr { mem := s.mem, out := s.out, requests := s.requests ++ [.read addr] })) ∧
      (¬Violates addr s → InMemory addr → exec (.loadAddr addr) s =
        .next { s with
          ac := s.mem.read addr.toNat, pc := s.pc + 2, requests := s.requests ++ [.read addr] })) ∧
    TwoWords (.loadAddr addr) 2 addr

/-- 41_load_store.md R122: `LoadInd` checks `addr` alone; the pointer `p` read there may lie in the system region in User mode
too, and faults only when it is outside memory; otherwise `AC` gets `Mem[p]`. -/
def Obligations.LoadIndResult : Prop :=
  ∀ addr : Word,
    (∀ s : State, s.channel = .idle →
      (Violates addr s → exec (.loadInd addr) s = .fault (.memoryViolation addr s.observed)) ∧
      (¬Violates addr s → ¬InMemory addr → exec (.loadInd addr) s =
        .fault (.outOfBounds addr { mem := s.mem, out := s.out, requests := s.requests ++ [.read addr] })) ∧
      (∀ p : Word, ¬Violates addr s → InMemory addr → p = s.mem.read addr.toNat →
        (¬InMemory p → exec (.loadInd addr) s =
          .fault (.outOfBounds p
            { mem := s.mem, out := s.out, requests := s.requests ++ [.read addr, .read p] })) ∧
        (InMemory p → exec (.loadInd addr) s =
          .next { s with
            ac := s.mem.read p.toNat, pc := s.pc + 2, requests := s.requests ++ [.read addr, .read p] }))) ∧
    TwoWords (.loadInd addr) 3 addr

/-- 41_load_store.md R123 to R125: the indexed loads check `addr` before the index is added (`LoadSpX` checks nothing), then
fault when the wrapped sum is outside memory, and otherwise put the word there in `AC` and leave everything else but `PC`. The
wrapping of the sum is the spec's decision D2 (log 2). The operand fetches fault at 1999. -/
def Obligations.IndexedLoadResults : Prop :=
  (∀ addr : Word, TwoWords (.loadIdxX addr) 4 addr ∧ TwoWords (.loadIdxY addr) 5 addr) ∧
  ∀ (addr : Word) (s : State), s.channel = .idle →
    ((Violates addr s → exec (.loadIdxX addr) s = .fault (.memoryViolation addr s.observed)) ∧
      (¬Violates addr s → ¬InMemory (addr + s.x) → exec (.loadIdxX addr) s =
        .fault (.outOfBounds (addr + s.x)
          { mem := s.mem, out := s.out, requests := s.requests ++ [.read (addr + s.x)] })) ∧
      (¬Violates addr s → InMemory (addr + s.x) → exec (.loadIdxX addr) s =
        .next { s with
          ac := s.mem.read (addr + s.x).toNat, pc := s.pc + 2,
          requests := s.requests ++ [.read (addr + s.x)] })) ∧
    ((Violates addr s → exec (.loadIdxY addr) s = .fault (.memoryViolation addr s.observed)) ∧
      (¬Violates addr s → ¬InMemory (addr + s.y) → exec (.loadIdxY addr) s =
        .fault (.outOfBounds (addr + s.y)
          { mem := s.mem, out := s.out, requests := s.requests ++ [.read (addr + s.y)] })) ∧
      (¬Violates addr s → InMemory (addr + s.y) → exec (.loadIdxY addr) s =
        .next { s with
          ac := s.mem.read (addr + s.y).toNat, pc := s.pc + 2,
          requests := s.requests ++ [.read (addr + s.y)] })) ∧
    ((¬InMemory (s.sp + s.x) → exec .loadSpX s =
        .fault (.outOfBounds (s.sp + s.x)
          { mem := s.mem, out := s.out, requests := s.requests ++ [.read (s.sp + s.x)] })) ∧
      (InMemory (s.sp + s.x) → exec .loadSpX s =
        .next { s with
          ac := s.mem.read (s.sp + s.x).toNat, pc := s.pc + 1,
          requests := s.requests ++ [.read (s.sp + s.x)] }))

/-- 41_load_store.md R126: `Store` faults on a protection violation (no write request is issued, memory is unchanged), then on an
address outside memory (memory is unchanged), and otherwise `Mem[addr]` becomes `AC`, every other word stays, and so does
everything else but `PC`. A MemoryViolation ends the run with an exit code that is not 0. -/
def Obligations.StoreResult : Prop :=
  ∀ addr : Word,
    (∀ s : State, s.channel = .idle → s.mem.wf = true →
      (Violates addr s → exec (.store addr) s =
        .fault (.memoryViolation addr { mem := s.mem, out := s.out, requests := s.requests })) ∧
      (¬Violates addr s → ¬InMemory addr → exec (.store addr) s =
        .fault (.outOfBounds addr { mem := s.mem, out := s.out, requests := s.requests ++ [.write addr s.ac] })) ∧
      (¬Violates addr s → InMemory addr →
        ∃ t, exec (.store addr) s = .next t ∧ t.mem.read addr.toNat = s.ac ∧
          (∀ k, k ≠ addr.toNat → t.mem.read k = s.mem.read k) ∧
          t = { s with mem := t.mem, pc := s.pc + 2, requests := s.requests ++ [.write addr s.ac] })) ∧
    TwoWords (.store addr) 7 addr ∧ ∀ c, exitCode (.faulted .memoryViolation) = some c → c ≠ 0

/-- 42_rand_put.md R130 with decision D10 (log 7): `Rand` always runs, and the value it writes lies in 1..100; nothing else is
known of it. Everything else but `PC` and the model's own draw counter stays. -/
def Obligations.RandResult : Prop :=
  ∀ s : State, ∃ t, exec .rand s = .next t ∧ 1 ≤ t.ac.toInt ∧ t.ac.toInt ≤ 100 ∧
    t = { s with ac := t.ac, pc := s.pc + 1, drawCount := s.drawCount + 1 }

/-- 42_rand_put.md R131: `Put` appends `(port, AC)` to `Out` for ports 1 and 2 and nothing for every other port; it always runs,
and leaves everything else but `PC`. Its operand fetch faults at 1999. The event keeps the full Word (decision D9, log 20). -/
def Obligations.PutResult : Prop :=
  ∀ port : Word,
    (∀ s : State, ∃ t, exec (.put port) s = .next t ∧
      (port = 1 → t.out = s.out ++ [{ port := .integer, value := s.ac }]) ∧
      (port = 2 → t.out = s.out ++ [{ port := .character, value := s.ac }]) ∧
      (port ≠ 1 → port ≠ 2 → t.out = s.out) ∧
      t = { s with out := t.out, pc := s.pc + 2 }) ∧
    TwoWords (.put port) 9 port

/-- 43_alu_copy.md R135 to R139, R146, R147: each sum or difference is the true one reduced modulo 2^32 into the signed range
(the reduction is the spec's decision D2, log 2; the width D1, log 1); no flag exists, nothing else but `PC` changes, and none
can fault. -/
def Obligations.ArithmeticResults : Prop :=
  ∀ s : State,
    (∃ v : Word, exec .addX s = .next { s with ac := v, pc := s.pc + 1 } ∧
      v.toInt = (s.ac.toInt + s.x.toInt).bmod 4294967296) ∧
    (∃ v : Word, exec .addY s = .next { s with ac := v, pc := s.pc + 1 } ∧
      v.toInt = (s.ac.toInt + s.y.toInt).bmod 4294967296) ∧
    (∃ v : Word, exec .subX s = .next { s with ac := v, pc := s.pc + 1 } ∧
      v.toInt = (s.ac.toInt - s.x.toInt).bmod 4294967296) ∧
    (∃ v : Word, exec .subY s = .next { s with ac := v, pc := s.pc + 1 } ∧
      v.toInt = (s.ac.toInt - s.y.toInt).bmod 4294967296) ∧
    (∃ v : Word, exec .incX s = .next { s with x := v, pc := s.pc + 1 } ∧
      v.toInt = (s.x.toInt + 1).bmod 4294967296) ∧
    (∃ v : Word, exec .decX s = .next { s with x := v, pc := s.pc + 1 } ∧
      v.toInt = (s.x.toInt - 1).bmod 4294967296)

/-- 43_alu_copy.md section 3 (R140 to R145): one word each; a copy moves the whole Word,
checks nothing (`CopyToSP` in User mode neither: decision D8, log 19), and leaves everything else but `PC`. -/
def Obligations.CopyResults : Prop :=
  encode .copyToX = [14] ∧ encode .copyFromX = [15] ∧ encode .copyToY = [16] ∧ encode .copyFromY = [17] ∧
  encode .copyToSP = [18] ∧ encode .copyFromSP = [19] ∧
  ∀ s : State,
    exec .copyToX s = .next { s with x := s.ac, pc := s.pc + 1 } ∧
    exec .copyFromX s = .next { s with ac := s.x, pc := s.pc + 1 } ∧
    exec .copyToY s = .next { s with y := s.ac, pc := s.pc + 1 } ∧
    exec .copyFromY s = .next { s with ac := s.y, pc := s.pc + 1 } ∧
    exec .copyToSP s = .next { s with sp := s.ac, pc := s.pc + 1 } ∧
    exec .copyFromSP s = .next { s with ac := s.sp, pc := s.pc + 1 }

/-- 44_control.md R151 to R153: the jumps set `PC` to the operand, the conditional ones when `AC` is 0 and when it is not; a jump
not taken goes to `pc0 + 2`; nothing else changes, and no target is checked in either mode (R150, log 16). Their operand fetch faults at 1999, taken or not. -/
def Obligations.JumpResults : Prop :=
  ∀ addr : Word,
    (∀ s : State,
      exec (.jump addr) s = .next { s with pc := addr } ∧
      (s.ac.toInt = 0 → exec (.jumpIfEqual addr) s = .next { s with pc := addr } ∧
        exec (.jumpIfNotEqual addr) s = .next { s with pc := s.pc + 2 }) ∧
      (s.ac.toInt ≠ 0 → exec (.jumpIfEqual addr) s = .next { s with pc := s.pc + 2 } ∧
        exec (.jumpIfNotEqual addr) s = .next { s with pc := addr })) ∧
    TwoWords (.jump addr) 20 addr ∧ TwoWords (.jumpIfEqual addr) 21 addr ∧
    TwoWords (.jumpIfNotEqual addr) 22 addr

/-- 44_control.md R154, R155, with the stack accesses unchecked in either mode (decision D4, log 15) and the `Call`'s
target too (90_conflicts.md C4, log 16): `Call` writes `pc0 + 2` at
`SP - 1`, moves `SP` there and jumps; `Ret` takes the word at `SP` as `PC` and moves `SP` up; each faults when its stack address is
outside memory; nothing else changes. The `Call`'s operand fetch faults at 1999. -/
def Obligations.CallAndRetResults : Prop :=
  (∀ addr : Word, TwoWords (.call addr) 23 addr) ∧
  ∀ s : State, s.channel = .idle → s.mem.wf = true →
    (∀ addr : Word,
      (¬InMemory (s.sp - 1) → exec (.call addr) s =
        .fault (.outOfBounds (s.sp - 1)
          { mem := s.mem, out := s.out, requests := s.requests ++ [.write (s.sp - 1) (s.pc + 2)] })) ∧
      (InMemory (s.sp - 1) →
        ∃ t, exec (.call addr) s = .next t ∧ t.mem.read (s.sp - 1).toNat = s.pc + 2 ∧
          (∀ k, k ≠ (s.sp - 1).toNat → t.mem.read k = s.mem.read k) ∧
          t = { s with
            mem := t.mem, sp := s.sp - 1, pc := addr, requests := s.requests ++ [.write (s.sp - 1) (s.pc + 2)] })) ∧
    (¬InMemory s.sp → exec .ret s =
      .fault (.outOfBounds s.sp { mem := s.mem, out := s.out, requests := s.requests ++ [.read s.sp] })) ∧
    (InMemory s.sp → exec .ret s =
      .next { s with
        pc := s.mem.read s.sp.toNat, sp := s.sp + 1, requests := s.requests ++ [.read s.sp] })

/-- 45_stack.md R160, R161, with the stack accesses unchecked in either mode (decision D4, log 15): `Push` writes `AC` at `SP - 1`
and moves `SP` there; `Pop` puts the word at `SP` in `AC`, moves `SP` up and leaves memory; each faults when its address is outside
memory; nothing else but `PC` changes. -/
def Obligations.PushAndPopResults : Prop :=
  ∀ s : State, s.channel = .idle → s.mem.wf = true →
    (¬InMemory (s.sp - 1) → exec .push s =
      .fault (.outOfBounds (s.sp - 1)
        { mem := s.mem, out := s.out, requests := s.requests ++ [.write (s.sp - 1) s.ac] })) ∧
    (InMemory (s.sp - 1) →
      ∃ t, exec .push s = .next t ∧ t.mem.read (s.sp - 1).toNat = s.ac ∧
        (∀ k, k ≠ (s.sp - 1).toNat → t.mem.read k = s.mem.read k) ∧
        t = { s with
          mem := t.mem, sp := s.sp - 1, pc := s.pc + 1, requests := s.requests ++ [.write (s.sp - 1) s.ac] }) ∧
    (¬InMemory s.sp → exec .pop s =
      .fault (.outOfBounds s.sp { mem := s.mem, out := s.out, requests := s.requests ++ [.read s.sp] })) ∧
    (InMemory s.sp → exec .pop s =
      .next { s with
        ac := s.mem.read s.sp.toNat, sp := s.sp + 1, pc := s.pc + 1, requests := s.requests ++ [.read s.sp] })

/-- 44_control.md R155, the source's property: a `Call`, then whatever leaves `SP` and the word it points to, then `Ret`: `PC` is the
address after the `Call`'s operand and `SP` is what it was. That the `Ret` answers in either mode, wherever `SP` points, is decision D4
(log 15). -/
def Obligations.CallThenRetBalances : Prop :=
  ∀ (addr : Word) (s t u : State), s.mem.wf = true → exec (.call addr) s = .next t →
    u.channel = .idle → u.sp = t.sp → u.mem.read t.sp.toNat = t.mem.read t.sp.toNat →
    ∃ v, exec .ret u = .next v ∧ v.pc = s.pc + 2 ∧ v.sp = s.sp ∧ v.mem = u.mem

/-- 45_stack.md R161, the source's property: `Push` followed immediately by `Pop` leaves `AC` and `SP`, and the popped word keeps its
written value. That both answer in either mode, wherever `SP` points, is decision D4 (log 15). -/
def Obligations.PushThenPopRoundTrip : Prop :=
  ∀ s t : State, s.mem.wf = true → exec .push s = .next t →
    ∃ u, exec .pop t = .next u ∧ u.ac = s.ac ∧ u.sp = s.sp ∧ u.mem = t.mem ∧ u.mem.read (s.sp - 1).toNat = s.ac

/-- 46_system.md R165, 60_exceptions.md R194, R195: `Int` while an interrupt is in service only advances `PC`; otherwise it takes the
trap: Kernel, the old `SP` at 1998, the address after the `Int` at 1997 (decision D6, log 17), `SP` 1997, `PC` 1500; nothing else
changes. It cannot fault. -/
def Obligations.IntResult : Prop :=
  ∀ s : State, s.channel = .idle → s.mem.wf = true →
    (s.inInterrupt = true → exec .int s = .next { s with pc := s.pc + 1 }) ∧
    (s.inInterrupt = false →
      ∃ t, exec .int s = .next t ∧ t.mem.read 1998 = s.sp ∧ t.mem.read 1997 = s.pc + 1 ∧
        (∀ k, k ≠ 1998 → k ≠ 1997 → t.mem.read k = s.mem.read k) ∧
        t = { s with
          mode := .kernel, inInterrupt := true, sp := 1997, pc := 1500, mem := t.mem,
          requests := s.requests ++ [.write 1998 s.sp, .write 1997 (s.pc + 1)] })

/-- 46_system.md R166, 60_exceptions.md R197: `IRet` pops `PC` and then `SP`, whatever the mode and whether or not an interrupt is in
service (decision D8, log 19) and wherever `SP` points (decision D4, log 15), and sets User mode with `InInterrupt` false; it restores nothing else. It faults at the first pop
whose address is outside memory. -/
def Obligations.IRetResult : Prop :=
  ∀ s : State, s.channel = .idle →
    (¬InMemory s.sp → exec .iRet s =
      .fault (.outOfBounds s.sp { mem := s.mem, out := s.out, requests := s.requests ++ [.read s.sp] })) ∧
    (s.sp = 1999 → exec .iRet s =
      .fault (.outOfBounds 2000
        { mem := s.mem, out := s.out, requests := s.requests ++ [.read 1999, .read 2000] })) ∧
    (0 ≤ s.sp.toInt → s.sp.toInt ≤ 1998 → exec .iRet s =
      .next { s with
        pc := s.mem.read s.sp.toNat, sp := s.mem.read (s.sp.toNat + 1), mode := .user, inInterrupt := false,
        requests := s.requests ++ [.read s.sp, .read (s.sp + 1)] })

/-- 46_system.md R166, the source's property, with the return to the address after the `Int` (90_conflicts.md C8, log 17): a taken `Int`, a
handler that brings `SP` back and keeps the two saved words, and its `IRet` restore `SP` and `Mode`, and `PC` to the next instruction.
That the `IRet` answers whatever mode it runs in is decision D8 (log 19) and, for its two reads, decision D4 (log 15). -/
def Obligations.IntThenIRetRestores : Prop :=
  ∀ s t u : State, s.mem.wf = true → s.mode = .user → s.inInterrupt = false → exec .int s = .next t →
    u.channel = .idle → u.sp = t.sp → u.mem.read 1997 = t.mem.read 1997 → u.mem.read 1998 = t.mem.read 1998 →
    ∃ v, exec .iRet u = .next v ∧ v.pc = s.pc + 1 ∧ v.sp = s.sp ∧ v.mode = s.mode ∧ v.inInterrupt = false

/-- 46_system.md R167, 40_cycle.md R107: `Halt` sets Status to Halted and sends `ReqDone`; no register and no memory word changes, `PC`
keeps its address (decision D12, log 12; in either mode: decision D8, log 19; the slot after `ReqDone`: log 10), no timer check follows and it is not counted; exit code 0. -/
def Obligations.HaltResult : Prop :=
  (∀ s : State, s.channel = .idle →
    exec .halt s = .next { s with status := .halted, requests := s.requests ++ [.done] }) ∧
  (∀ s : State, Ready s → InMemory s.pc → s.mem.read s.pc.toNat = 50 →
    step s = .next { s with status := .halted, requests := [.read s.pc, .done] } ∧
    exitCode .halted = some 0)

/-- 60_exceptions.md R190 to R193, by the decisions D5, D7 and D17 (logs 13, 14, 18). When an instruction has retired: one that began
with `InInterrupt` true is not counted; one that began with it false is counted, and when the count reaches `T` the counter returns
to 0 and the timer is taken, saving the `SP` and `PC` the instruction left, or, with an interrupt now in service, dropped. -/
def Obligations.TimerCheckEffect : Prop :=
  ∀ (s t : State) (i : Instr), Ready s → s.mem.wf = true → InstrAt i s →
    exec i { s with requests := fetchRequests i s.pc } = .next t → t.status = .running →
    (s.inInterrupt = true → step s = .next t) ∧
    (s.inInterrupt = false → s.interruptCounter + 1 ≠ s.timeToInterrupt →
      step s = .next { t with interruptCounter := s.interruptCounter + 1 }) ∧
    (s.inInterrupt = false → s.interruptCounter + 1 = s.timeToInterrupt → t.inInterrupt = true →
      step s = .next { t with interruptCounter := 0 }) ∧
    (s.inInterrupt = false → s.interruptCounter + 1 = s.timeToInterrupt → t.inInterrupt = false →
      ∃ u, step s = .next u ∧ u.mem.read 1998 = t.sp ∧ u.mem.read 1997 = t.pc ∧
        (∀ k, k ≠ 1998 → k ≠ 1997 → u.mem.read k = t.mem.read k) ∧
        u = { t with
          interruptCounter := 0, mode := .kernel, inInterrupt := true, sp := 1997, pc := 1000, mem := u.mem,
          requests := t.requests ++ [.write 1998 t.sp, .write 1997 t.pc] })

/-- 60_exceptions.md R200 with 10_state.md R29, R30: the machine starts in User mode; a step that goes from User to Kernel mode ends in a
trap entry (an `Int` at 1500 or the timer at 1000, with `SP` 1997, an interrupt in service, and the entry's two writes the last
requests: R194, for the timer by the decision D7, log 18); a step that goes from Kernel to User mode ran an `IRet`. -/
def Obligations.ModeChangesOnlyByTrapAndIRet : Prop :=
  State.reset.mode = .user ∧
  (∀ s t : State, step s = .next t → s.mode = .user → t.mode = .kernel →
    t.inInterrupt = true ∧ t.sp = 1997 ∧
    (t.pc = 1500 ∧ s.mem.read s.pc.toNat = 29 ∧ s.inInterrupt = false ∨ t.pc = 1000) ∧
    ∃ before oldSp oldPc, t.requests = before ++ [.write 1998 oldSp, .write 1997 oldPc]) ∧
  (∀ s t : State, step s = .next t → s.mode = .kernel → t.mode = .user → s.mem.read s.pc.toNat = 30)

/-- 60_exceptions.md R182: in User mode an operand of at least 1000 of the opcodes 2, 3, 4, 5 and 7 raises MemoryViolation after the
two fetches and before any data request (the access is not made), with memory and `Out` unchanged; and nothing else raises it: a
step that does began in User mode, at one of those opcodes, with that operand. So it cannot occur in Kernel mode. That stack
accesses and jump targets do not raise it is decision D4 (log 15) and 90_conflicts.md C4 (log 16). -/
def Obligations.MemoryViolationExactlyFromUserOperands : Prop :=
  (∀ (s : State) (a : Word) (i : Instr), Ready s → Violates a s → InstrAt i s →
    i = .loadAddr a ∨ i = .loadInd a ∨ i = .loadIdxX a ∨ i = .loadIdxY a ∨ i = .store a →
    step s = .fault (.memoryViolation a
      { mem := s.mem, out := s.out, requests := [.read s.pc, .read (s.pc + 1)] })) ∧
  (∀ (s : State) (a : Word) (seen : Observed), step s = .fault (.memoryViolation a seen) →
    s.mode = .user ∧ 1000 ≤ a.toInt ∧ a = s.mem.read (s.pc + 1).toNat ∧
    (s.mem.read s.pc.toNat = 2 ∨ s.mem.read s.pc.toNat = 3 ∨ s.mem.read s.pc.toNat = 4 ∨
      s.mem.read s.pc.toNat = 5 ∨ s.mem.read s.pc.toNat = 7) ∧
    seen = { mem := s.mem, out := s.out, requests := [.read s.pc, .read (s.pc + 1)] })

/-- 60_exceptions.md R183: OutOfBounds is raised when the address of a request, a read or a write, in any mode, is below 0 or above 1999;
and a step raises it only for such a request, the last it sent. -/
def Obligations.OutOfBoundsExactlyOutsideMemory : Prop :=
  (∀ (s : State) (a v : Word), s.channel = .idle → a.toInt < 0 ∨ 1999 < a.toInt →
    memRead a s =
      .fault (.outOfBounds a { mem := s.mem, out := s.out, requests := s.requests ++ [.read a] }) ∧
    memWrite a v s =
      .fault (.outOfBounds a { mem := s.mem, out := s.out, requests := s.requests ++ [.write a v] })) ∧
  (∀ (s : State) (a : Word) (seen : Observed), step s = .fault (.outOfBounds a seen) →
    (a.toInt < 0 ∨ 1999 < a.toInt) ∧
    (seen.requests.getLast? = some (.read a) ∨ ∃ v, seen.requests.getLast? = some (.write a v)))

/-- 60_exceptions.md R180 with the instruction rules: at a fatal fault memory and `Out` are as the step found them (no instruction writes or
emits before its last fault, and a timer entry, which comes after them, cannot fault: R194, decision D7, log 18). -/
def Obligations.FaultLeavesMemoryAndOut : Prop :=
  ∀ (s : State) (f : Fault) (seen : Observed), step s = .fault f → faultSeen f = some seen →
    seen.mem = s.mem ∧ seen.out = s.out

/-- 40_cycle.md R108: a machine that can take a step either takes it or raises one of the three fatal faults; the model never refuses, and
its stuck fault of the channel does not arise (log 10). -/
def Obligations.StepAnswersOrRaises : Prop :=
  ∀ s : State, (∀ r, step s ≠ .refused r) ∧
    (Ready s → (∃ t, step s = .next t) ∨ ∃ f k, step s = .fault f ∧ faultStatus f = some (.faulted k))

/-- 20_memory.md R51, 10_state.md R34 (95_test_vectors.md 2.8, 4): in a step, memory changes only at the addresses of the write requests the
step sent. -/
def Obligations.MemoryChangesOnlyByWriteRequests : Prop :=
  ∀ s t : State, step s = .next t →
    ∀ k : Nat, (∀ a v : Word, Request.write a v ∈ t.requests → a.toNat ≠ k) → t.mem.read k = s.mem.read k

/-- 10_state.md R36: `Out` is empty at reset and only appended to: a step appends at most one event, only when it ran a `Put`; the event's
port is the operand, 1 or 2, and its value is the whole Word in `AC` (decision D9, log 20). -/
def Obligations.OutputOnlyGrowsByPut : Prop :=
  State.reset.out = [] ∧
  ∀ s t : State, step s = .next t →
    t.out = s.out ∨
    s.mem.read s.pc.toNat = 9 ∧
      (s.mem.read (s.pc + 1).toNat = 1 ∧ t.out = s.out ++ [{ port := .integer, value := s.ac }] ∨
        s.mem.read (s.pc + 1).toNat = 2 ∧ t.out = s.out ++ [{ port := .character, value := s.ac }])

/-- 10_state.md R21 to R24, whole-machine: which opcodes write `AC`, `X`, `Y` and `SP`; besides them only timer entry changes `SP`
(to 1997, with `PC` 1000: R194, decision D7, log 18), and trap entry leaves `AC`, `X` and `Y` (R40). -/
def Obligations.RegisterWriters : Prop :=
  ∀ s t : State, step s = .next t →
    (t.ac ≠ s.ac → (s.mem.read s.pc.toNat).toInt ∈ [1, 2, 3, 4, 5, 6, 8, 10, 11, 12, 13, 15, 17, 19, 28]) ∧
    (t.x ≠ s.x → (s.mem.read s.pc.toNat).toInt ∈ [14, 25, 26]) ∧
    (t.y ≠ s.y → (s.mem.read s.pc.toNat).toInt = 16) ∧
    (t.sp ≠ s.sp → (s.mem.read s.pc.toNat).toInt ∈ [18, 23, 24, 27, 28, 29, 30] ∨
      t.pc = 1000 ∧ t.sp = 1997 ∧ t.inInterrupt = true)

/-- 10_state.md R32: `T` is constant from reset to the end of the run; no step changes it (that it stands in State is the model's choice,
log 5). -/
def Obligations.ThresholdIsConstant : Prop :=
  ∀ s t : State, step s = .next t → t.timeToInterrupt = s.timeToInterrupt

/-- 20_memory.md R62 (95_test_vectors.md 2.8, 7): a step that runs a User-mode `Store` and ends in User mode changes no word of the system
region; one that ends in a timer entry changes there at most the two words of that entry (R194, decision D7, log 18). -/
def Obligations.UserStoreKeepsSystemRegion : Prop :=
  ∀ s t : State, step s = .next t → s.mode = .user → s.mem.read s.pc.toNat = 7 →
    (t.mode = .user → ∀ k : Nat, 1000 ≤ k → t.mem.read k = s.mem.read k) ∧
    (t.mode = .kernel → t.pc = 1000 ∧
      ∀ k : Nat, 1000 ≤ k → k ≠ 1997 → k ≠ 1998 → t.mem.read k = s.mem.read k)

/-- 20_memory.md R72, R70: what a write puts at an address is what the next read of it gives, a fetch included; and every other address still
reads as before. -/
def Obligations.WriteIsSeenByNextRead : Prop :=
  ∀ (a v : Word) (s t : State), s.mem.wf = true → memWrite a v s = .next t →
    memRead a t = .next (v, { t with requests := t.requests ++ [.read a] }) ∧
    ∀ b : Word, InMemory b → b ≠ a →
      memRead b t = .next (s.mem.read b.toNat, { t with requests := t.requests ++ [.read b] })

/-- The canonical form determines memory: two memories in it that read the same at every address are the same data (log 4). -/
def Obligations.CanonicalMemoryIsDetermined : Prop :=
  ∀ m n : Memory, m.wf = true → n.wf = true → (∀ k : Nat, k < 2000 → m.read k = n.read k) → m = n

/-- 20_memory.md section 7: the first request of every step, of one that answers and of one that raises a fatal fault, is the read of
the opcode at `pc0`. -/
def Obligations.EveryStepStartsWithItsFetch : Prop :=
  (∀ s t : State, step s = .next t → t.requests.head? = some (.read s.pc)) ∧
  (∀ (s : State) (f : Fault) (seen : Observed), step s = .fault f → faultSeen f = some seen →
    seen.requests.head? = some (.read s.pc))

/-- 40_cycle.md R107, R112: after a step the machine is Halted exactly when the step fetched the opcode 50, and is Running otherwise. -/
def Obligations.OnlyHaltEndsTheRun : Prop :=
  ∀ s t : State, step s = .next t →
    (s.mem.read s.pc.toNat = 50 → t.status = .halted) ∧ (s.mem.read s.pc.toNat ≠ 50 → t.status = .running)

/-- 10_state.md R37, 40_cycle.md R112: the exit code is 0 at Halted and a non-zero value (free, log 21) at every fault; none while running. -/
def Obligations.ExitCodes : Prop :=
  exitCode .running = none ∧ exitCode .halted = some 0 ∧ ∀ k, ∃ c, exitCode (.faulted k) = some c ∧ c ≠ 0
end

