-- ==== Sys2Proof/Laws/Word.lean ====
section
/-! SUPPORT. What the width `XLEN = 32` makes of a Word, in numerals that `omega` and `simp` know. -/

namespace Sys2Proof.Word

theorem toNat_lt (w : Word) : w.toNat < 4294967296 := w.isLt

/-- The signed value of a Word from its unsigned one. -/
theorem toInt_eq (w : Word) :
    w.toInt = if w.toNat < 2147483648 then (w.toNat : Int) else (w.toNat : Int) - 4294967296 := by
  have h := BitVec.toInt_eq_toNat_cond (x := w)
  simp only [XLEN] at h
  rw [h]
  congr 1
  exact propext ⟨fun _ => by omega, fun _ => by omega⟩

theorem toNat_ofNat (n : Nat) : (BitVec.ofNat XLEN n).toNat = n % 4294967296 := rfl

theorem toNat_add (a b : Word) : (a + b).toNat = (a.toNat + b.toNat) % 4294967296 := BitVec.toNat_add a b

theorem toNat_sub (a b : Word) : (a - b).toNat = (4294967296 - b.toNat + a.toNat) % 4294967296 := BitVec.toNat_sub a b

/-- One more is one more in signed value too, below the greatest Word. -/
theorem toInt_add_one {a : Word} (h : a.toInt < 2147483647) : (a + 1).toInt = a.toInt + 1 := by
  have ha := toNat_lt a
  have e : (a + 1).toNat = (a.toNat + 1) % 4294967296 := toNat_add a 1
  rw [toInt_eq] at h ⊢
  rw [toInt_eq a, e]
  split_ifs at * <;> omega

theorem minInt_eq : minInt = -2147483648 := by decide

theorem maxInt_eq : maxInt = 2147483647 := by decide

end Sys2Proof.Word
end

