-- ==== Sys2Proof/Laws/Memory.lean ====
section
/-! SUPPORT. The laws of the MemoryStore's array: read after write, and that every memory operation keeps the
canonical form. -/

namespace Sys2Proof.Machine

/-- The bounds check as arithmetic on the unsigned value. -/
theorem inBounds_iff (a : Word) : inBounds a = true ↔ a.toNat < 2000 := by
  have := Word.toNat_lt a
  simp only [inBounds, decide_eq_true_eq, Word.toInt_eq]
  split <;> omega

/-- The bounds check as 20_memory.md R52 words it. -/
theorem inBounds_iff_toInt (a : Word) : inBounds a = true ↔ 0 ≤ a.toInt ∧ a.toInt ≤ 1999 := by
  simp only [inBounds, decide_eq_true_eq]
  omega

theorem read_nil (a : Nat) : Memory.read [] a = 0 := rfl

theorem read_cons (k : Nat) (v : Word) (m : Memory) (a : Nat) :
    Memory.read ((k, v) :: m) a = if k = a then v else Memory.read m a := rfl

theorem wfFrom_cons (lo k : Nat) (v : Word) (m : Memory) :
    Memory.wfFrom lo ((k, v) :: m) = true ↔ lo ≤ k ∧ k < 2000 ∧ v ≠ 0 ∧ Memory.wfFrom (k + 1) m = true := by
  simp [Memory.wfFrom, and_assoc]

/-- A later start is a weaker form. -/
theorem wfFrom_mono {lo lo' : Nat} (h : lo' ≤ lo) {m : Memory} (hm : Memory.wfFrom lo m = true) :
    Memory.wfFrom lo' m = true := by
  cases m with
  | nil => rfl
  | cons c m =>
    rw [wfFrom_cons] at hm ⊢
    exact ⟨by omega, hm.2⟩

/-- Below its first cell a memory in canonical form reads as unlisted. -/
theorem read_below {lo a : Nat} (h : a < lo) {m : Memory} (hm : Memory.wfFrom lo m = true) : m.read a = 0 := by
  induction m generalizing lo with
  | nil => rfl
  | cons c m ih =>
    rw [wfFrom_cons] at hm
    rw [read_cons, if_neg (by omega)]
    exact ih (by omega) hm.2.2.2

/-- A write leaves every other address alone. -/
theorem read_write_other {a b : Nat} (h : b ≠ a) (m : Memory) (w : Word) : (m.write a w).read b = m.read b := by
  induction m with
  | nil =>
    simp only [Memory.write]
    split
    · rfl
    · rw [read_cons, if_neg (Ne.symm h)]
  | cons c m ih =>
    obtain ⟨k, v⟩ := c
    simp only [Memory.write]
    split_ifs with h1 h2 h3 h4
    · rfl
    · rw [read_cons, if_neg (Ne.symm h)]
    · rw [read_cons, if_neg (by omega)]
    · rw [read_cons, read_cons, if_neg (by omega), if_neg (by omega)]
    · rw [read_cons, read_cons, ih]

/-- A read after a write to the same address gives the word written. -/
theorem read_write_same_from {lo a : Nat} {m : Memory} (hm : Memory.wfFrom lo m = true) (w : Word) :
    (m.write a w).read a = w := by
  induction m generalizing lo with
  | nil =>
    simp only [Memory.write]
    split
    · subst_vars; rfl
    · rw [read_cons, if_pos rfl]
  | cons c m ih =>
    obtain ⟨k, v⟩ := c
    have hk := (wfFrom_cons lo k v m).1 hm
    simp only [Memory.write]
    split_ifs with h1 h2 h3 h4
    · rw [read_cons, if_neg (by omega), read_below (by omega) hk.2.2.2, h2]
    · rw [read_cons, if_pos rfl]
    · rw [read_below (by omega) hk.2.2.2, h4]
    · rw [read_cons, if_pos h3.symm]
    · rw [read_cons, if_neg (by omega)]; exact ih hk.2.2.2

theorem read_write_same {m : Memory} (hm : m.wf = true) (a : Nat) (w : Word) : (m.write a w).read a = w :=
  read_write_same_from hm w

/-- A write inside memory keeps the canonical form. -/
theorem wfFrom_write {lo a : Nat} (hlo : lo ≤ a) (ha : a < 2000) {m : Memory} (hm : Memory.wfFrom lo m = true) (w : Word) :
    Memory.wfFrom lo (m.write a w) = true := by
  induction m generalizing lo with
  | nil =>
    simp only [Memory.write]
    split
    · rfl
    · rw [wfFrom_cons]; exact ⟨hlo, ha, by assumption, rfl⟩
  | cons c m ih =>
    obtain ⟨k, v⟩ := c
    have hk := (wfFrom_cons lo k v m).1 hm
    simp only [Memory.write]
    split_ifs with h1 h2 h3 h4
    · exact hm
    · rw [wfFrom_cons, wfFrom_cons]; exact ⟨hlo, ha, h2, by omega, hk.2⟩
    · exact wfFrom_mono (by omega) hk.2.2.2
    · rw [wfFrom_cons]; exact ⟨hk.1, hk.2.1, h4, hk.2.2.2⟩
    · rw [wfFrom_cons]; exact ⟨hk.1, hk.2.1, hk.2.2.1, ih (by omega) hk.2.2.2⟩

theorem wf_write {a : Nat} (ha : a < 2000) {m : Memory} (hm : m.wf = true) (w : Word) : (m.write a w).wf = true :=
  wfFrom_write (Nat.zero_le a) ha hm w

/-- Every message the MemoryStore handles keeps the canonical form. -/
theorem wf_serve (r : Request) {m : Memory} (hm : m.wf = true) : (serve r m).2.wf = true := by
  cases r with
  | read a => simp only [serve]; split <;> exact hm
  | write a v =>
    simp only [serve]
    split
    · exact wf_write ((inBounds_iff a).1 (by assumption)) hm v
    · exact hm
  | done => exact hm

/-- A load from outside keeps the canonical form. -/
theorem wf_place {m : Memory} (hm : m.wf = true) (a w : Word) : (m.place a w).wf = true := by
  simp only [Memory.place]
  split
  · exact wf_write ((inBounds_iff a).1 (by assumption)) hm w
  · exact hm

theorem wf_placeWords {m : Memory} (hm : m.wf = true) (a : Word) (ws : List Word) : (placeWords ws a m).wf = true := by
  induction ws generalizing a m with
  | nil => exact hm
  | cons w ws ih => exact ih (wf_place hm a w) (a + 1)

/-- The reset memory has the canonical form. -/
theorem wf_reset : State.reset.mem.wf = true := rfl

end Sys2Proof.Machine
end

