-- ==== Sys2Proof/Laws/State.lean ====
section
/-! SUPPORT. One lemma per field for each named update of the state, true by rfl, so that no proof unfolds a record
update; and the small lemmas of `andThen`. -/

namespace Sys2Proof.Machine

@[simp] theorem andThen_next {α β : Type} (a : α) (f : α → Host.Outcome β Fault Refusal) :
    andThen (.next a) f = f a := rfl

@[simp] theorem andThen_fault {α β : Type} (r : Fault) (f : α → Host.Outcome β Fault Refusal) :
    andThen (.fault r) f = .fault r := rfl

@[simp] theorem andThen_refused {α β : Type} (r : Refusal) (f : α → Host.Outcome β Fault Refusal) :
    andThen (.refused r) f = .refused r := rfl

/-- A sequence answers a next state exactly when both parts do. -/
theorem andThen_eq_next {α β : Type} {o : Host.Outcome α Fault Refusal} {f : α → Host.Outcome β Fault Refusal} {b : β} :
    andThen o f = .next b ↔ ∃ a, o = .next a ∧ f a = .next b := by
  cases o <;> simp [andThen]

/-- A sequence faults when its first part faults, or the second does after it. -/
theorem andThen_eq_fault {α β : Type} {o : Host.Outcome α Fault Refusal} {f : α → Host.Outcome β Fault Refusal} {r : Fault} :
    andThen o f = .fault r ↔ o = .fault r ∨ ∃ a, o = .next a ∧ f a = .fault r := by
  cases o <;> simp [andThen]

/-- A sequence refuses when its first part refuses, or the second does after it. -/
theorem andThen_eq_refused {α β : Type} {o : Host.Outcome α Fault Refusal} {f : α → Host.Outcome β Fault Refusal}
    {r : Refusal} : andThen o f = .refused r ↔ o = .refused r ∨ ∃ a, o = .next a ∧ f a = .refused r := by
  cases o <;> simp [andThen]

@[simp] theorem observed_mem (s : State) : s.observed.mem = s.mem := rfl
@[simp] theorem observed_out (s : State) : s.observed.out = s.out := rfl
@[simp] theorem observed_requests (s : State) : s.observed.requests = s.requests := rfl

@[simp] theorem advance_pc (n : Word) (s : State) : (advance n s).pc = s.pc + n := rfl
@[simp] theorem advance_sp (n : Word) (s : State) : (advance n s).sp = s.sp := rfl
@[simp] theorem advance_ac (n : Word) (s : State) : (advance n s).ac = s.ac := rfl
@[simp] theorem advance_x (n : Word) (s : State) : (advance n s).x = s.x := rfl
@[simp] theorem advance_y (n : Word) (s : State) : (advance n s).y = s.y := rfl
@[simp] theorem advance_mode (n : Word) (s : State) : (advance n s).mode = s.mode := rfl
@[simp] theorem advance_inInterrupt (n : Word) (s : State) : (advance n s).inInterrupt = s.inInterrupt := rfl
@[simp] theorem advance_interruptCounter (n : Word) (s : State) : (advance n s).interruptCounter = s.interruptCounter := rfl
@[simp] theorem advance_mem (n : Word) (s : State) : (advance n s).mem = s.mem := rfl
@[simp] theorem advance_channel (n : Word) (s : State) : (advance n s).channel = s.channel := rfl
@[simp] theorem advance_out (n : Word) (s : State) : (advance n s).out = s.out := rfl
@[simp] theorem advance_status (n : Word) (s : State) : (advance n s).status = s.status := rfl
@[simp] theorem advance_timeToInterrupt (n : Word) (s : State) : (advance n s).timeToInterrupt = s.timeToInterrupt := rfl
@[simp] theorem advance_drawCount (n : Word) (s : State) : (advance n s).drawCount = s.drawCount := rfl
@[simp] theorem advance_requests (n : Word) (s : State) : (advance n s).requests = s.requests := rfl

@[simp] theorem emit_out (p : Port) (v : Word) (s : State) : (emit p v s).out = s.out ++ [{ port := p, value := v }] := rfl
@[simp] theorem emit_pc (p : Port) (v : Word) (s : State) : (emit p v s).pc = s.pc := rfl
@[simp] theorem emit_sp (p : Port) (v : Word) (s : State) : (emit p v s).sp = s.sp := rfl
@[simp] theorem emit_ac (p : Port) (v : Word) (s : State) : (emit p v s).ac = s.ac := rfl
@[simp] theorem emit_x (p : Port) (v : Word) (s : State) : (emit p v s).x = s.x := rfl
@[simp] theorem emit_y (p : Port) (v : Word) (s : State) : (emit p v s).y = s.y := rfl
@[simp] theorem emit_mode (p : Port) (v : Word) (s : State) : (emit p v s).mode = s.mode := rfl
@[simp] theorem emit_inInterrupt (p : Port) (v : Word) (s : State) : (emit p v s).inInterrupt = s.inInterrupt := rfl
@[simp] theorem emit_interruptCounter (p : Port) (v : Word) (s : State) : (emit p v s).interruptCounter = s.interruptCounter := rfl
@[simp] theorem emit_mem (p : Port) (v : Word) (s : State) : (emit p v s).mem = s.mem := rfl
@[simp] theorem emit_channel (p : Port) (v : Word) (s : State) : (emit p v s).channel = s.channel := rfl
@[simp] theorem emit_status (p : Port) (v : Word) (s : State) : (emit p v s).status = s.status := rfl
@[simp] theorem emit_timeToInterrupt (p : Port) (v : Word) (s : State) : (emit p v s).timeToInterrupt = s.timeToInterrupt := rfl
@[simp] theorem emit_drawCount (p : Port) (v : Word) (s : State) : (emit p v s).drawCount = s.drawCount := rfl
@[simp] theorem emit_requests (p : Port) (v : Word) (s : State) : (emit p v s).requests = s.requests := rfl

@[simp] theorem jumpWhen_pc (c : Bool) (a : Word) (s : State) :
    (jumpWhen c a s).pc = if c then a else s.pc + 2 := by cases c <;> rfl
@[simp] theorem jumpWhen_sp (c : Bool) (a : Word) (s : State) : (jumpWhen c a s).sp = s.sp := by cases c <;> rfl
@[simp] theorem jumpWhen_ac (c : Bool) (a : Word) (s : State) : (jumpWhen c a s).ac = s.ac := by cases c <;> rfl
@[simp] theorem jumpWhen_x (c : Bool) (a : Word) (s : State) : (jumpWhen c a s).x = s.x := by cases c <;> rfl
@[simp] theorem jumpWhen_y (c : Bool) (a : Word) (s : State) : (jumpWhen c a s).y = s.y := by cases c <;> rfl
@[simp] theorem jumpWhen_mode (c : Bool) (a : Word) (s : State) : (jumpWhen c a s).mode = s.mode := by cases c <;> rfl
@[simp] theorem jumpWhen_inInterrupt (c : Bool) (a : Word) (s : State) : (jumpWhen c a s).inInterrupt = s.inInterrupt := by cases c <;> rfl
@[simp] theorem jumpWhen_interruptCounter (c : Bool) (a : Word) (s : State) : (jumpWhen c a s).interruptCounter = s.interruptCounter := by cases c <;> rfl
@[simp] theorem jumpWhen_mem (c : Bool) (a : Word) (s : State) : (jumpWhen c a s).mem = s.mem := by cases c <;> rfl
@[simp] theorem jumpWhen_channel (c : Bool) (a : Word) (s : State) : (jumpWhen c a s).channel = s.channel := by cases c <;> rfl
@[simp] theorem jumpWhen_out (c : Bool) (a : Word) (s : State) : (jumpWhen c a s).out = s.out := by cases c <;> rfl
@[simp] theorem jumpWhen_status (c : Bool) (a : Word) (s : State) : (jumpWhen c a s).status = s.status := by cases c <;> rfl
@[simp] theorem jumpWhen_timeToInterrupt (c : Bool) (a : Word) (s : State) : (jumpWhen c a s).timeToInterrupt = s.timeToInterrupt := by cases c <;> rfl
@[simp] theorem jumpWhen_drawCount (c : Bool) (a : Word) (s : State) : (jumpWhen c a s).drawCount = s.drawCount := by cases c <;> rfl
@[simp] theorem jumpWhen_requests (c : Bool) (a : Word) (s : State) : (jumpWhen c a s).requests = s.requests := by cases c <;> rfl

end Sys2Proof.Machine
end

