-- ==== Sys2Proof/Laws/Ops.lean ====
section
/-! SUPPORT. For each shared operation one lemma that says once everything it does; the proofs about instructions cite
these and do not unfold the operations. -/

namespace Sys2Proof.Machine

/-- `memRead` on an Idle channel, whole. -/
theorem memRead_eq {s : State} (hc : s.channel = .idle) (a : Word) :
    memRead a s =
      if inBounds a then .next (s.mem.read a.toNat, { s with requests := s.requests ++ [.read a] })
      else .fault (.outOfBounds a { mem := s.mem, out := s.out, requests := s.requests ++ [.read a] }) := by
  obtain ⟨pc, sp, ac, x, y, mode, svc, cnt, mem, ch, out, st, t, d, rq⟩ := s
  obtain rfl : ch = .idle := hc
  cases hb : inBounds a <;> simp [memRead, send, andThen, respond, serve, hb, State.observed]

/-- `memWrite` on an Idle channel, whole. -/
theorem memWrite_eq {s : State} (hc : s.channel = .idle) (a v : Word) :
    memWrite a v s =
      if inBounds a then .next { s with mem := s.mem.write a.toNat v, requests := s.requests ++ [.write a v] }
      else .fault (.outOfBounds a { mem := s.mem, out := s.out, requests := s.requests ++ [.write a v] }) := by
  obtain ⟨pc, sp, ac, x, y, mode, svc, cnt, mem, ch, out, st, t, d, rq⟩ := s
  obtain rfl : ch = .idle := hc
  cases hb : inBounds a <;> simp [memWrite, send, andThen, respond, serve, hb, State.observed]

/-- On a Pending slot neither access is made. -/
theorem memRead_pending {s : State} {r : Request} (hc : s.channel = .pending r) (a : Word) :
    memRead a s = .fault (.channelMisuse (.read a)) := by
  simp [memRead, send, hc]

theorem memWrite_pending {s : State} {r : Request} (hc : s.channel = .pending r) (a v : Word) :
    memWrite a v s = .fault (.channelMisuse (.write a v)) := by
  simp [memWrite, send, hc]

/-- Everything a `memRead` that answers can have done. -/
theorem memRead_next {a : Word} {s : State} {r : Word × State} (h : memRead a s = .next r) :
    s.channel = .idle ∧ inBounds a = true ∧ r.1 = s.mem.read a.toNat ∧
      r.2 = { s with requests := s.requests ++ [.read a] } := by
  cases hc : s.channel with
  | pending q => rw [memRead_pending hc] at h; cases h
  | idle =>
    rw [memRead_eq hc] at h
    split at h
    · cases h; exact ⟨rfl, by assumption, rfl, by rw [← hc]⟩
    · cases h

/-- Everything a `memWrite` that answers can have done. -/
theorem memWrite_next {a v : Word} {s t : State} (h : memWrite a v s = .next t) :
    s.channel = .idle ∧ inBounds a = true ∧
      t = { s with mem := s.mem.write a.toNat v, requests := s.requests ++ [.write a v] } := by
  cases hc : s.channel with
  | pending q => rw [memWrite_pending hc] at h; cases h
  | idle =>
    rw [memWrite_eq hc] at h
    split at h
    · cases h; exact ⟨rfl, by assumption, by rw [← hc]⟩
    · cases h

/-- The only ways a `memRead` can fault. -/
theorem memRead_fault {a : Word} {s : State} {f : Fault} (h : memRead a s = .fault f) :
    f = .channelMisuse (.read a) ∧ s.channel ≠ .idle ∨ inBounds a = false ∧
      f = .outOfBounds a { mem := s.mem, out := s.out, requests := s.requests ++ [.read a] } := by
  cases hc : s.channel with
  | pending q => rw [memRead_pending hc] at h; cases h; exact .inl ⟨rfl, by simp⟩
  | idle =>
    rw [memRead_eq hc] at h
    split at h
    · cases h
    · cases h; exact .inr ⟨by simpa using ‹¬inBounds a = true›, rfl⟩

/-- The only ways a `memWrite` can fault. -/
theorem memWrite_fault {a v : Word} {s : State} {f : Fault} (h : memWrite a v s = .fault f) :
    f = .channelMisuse (.write a v) ∧ s.channel ≠ .idle ∨ inBounds a = false ∧
      f = .outOfBounds a { mem := s.mem, out := s.out, requests := s.requests ++ [.write a v] } := by
  cases hc : s.channel with
  | pending q => rw [memWrite_pending hc] at h; cases h; exact .inl ⟨rfl, by simp⟩
  | idle =>
    rw [memWrite_eq hc] at h
    split at h
    · cases h
    · cases h; exact .inr ⟨by simpa using ‹¬inBounds a = true›, rfl⟩

/-- Neither access refuses. -/
theorem memRead_ne_refused (a : Word) (s : State) (r : Refusal) : memRead a s ≠ .refused r := by
  cases hc : s.channel with
  | pending q => rw [memRead_pending hc]; simp
  | idle => rw [memRead_eq hc]; split <;> simp

theorem memWrite_ne_refused (a v : Word) (s : State) (r : Refusal) : memWrite a v s ≠ .refused r := by
  cases hc : s.channel with
  | pending q => rw [memWrite_pending hc]; simp
  | idle => rw [memWrite_eq hc]; split <;> simp

/-- `checkProt` where the operand passes. -/
theorem checkProt_pass {a : Word} {s : State} (h : s.mode = .user → a.toInt < 1000) : checkProt a s = .next s := by
  simp only [checkProt]
  rw [if_neg]
  rintro ⟨hu, ha⟩
  have := h hu
  omega

/-- `checkProt` where the operand violates. -/
theorem checkProt_violation {a : Word} {s : State} (hu : s.mode = .user) (ha : 1000 ≤ a.toInt) :
    checkProt a s = .fault (.memoryViolation a s.observed) := by
  simp only [checkProt]
  exact if_pos ⟨hu, ha⟩

/-- Everything a `checkProt` that answers can have done: nothing. -/
theorem checkProt_next {a : Word} {s t : State} (h : checkProt a s = .next t) :
    t = s ∧ (s.mode = .user → a.toInt < 1000) := by
  simp only [checkProt] at h
  split at h
  · cases h
  · rename_i hv
    cases h
    refine ⟨rfl, fun hu => ?_⟩
    by_contra hc
    exact hv ⟨hu, by omega⟩

theorem checkProt_fault {a : Word} {s : State} {f : Fault} (h : checkProt a s = .fault f) :
    s.mode = .user ∧ 1000 ≤ a.toInt ∧ f = .memoryViolation a s.observed := by
  simp only [checkProt] at h
  split at h
  · rename_i hv; cases h; exact ⟨hv.1, hv.2, rfl⟩
  · cases h

theorem checkProt_ne_refused (a : Word) (s : State) (r : Refusal) : checkProt a s ≠ .refused r := by
  simp only [checkProt]; split <;> simp

/-- `pushWord` on an Idle channel, whole. -/
theorem pushWord_eq {s : State} (hc : s.channel = .idle) (v : Word) :
    pushWord v s =
      if inBounds (s.sp - 1) then
        .next { s with
          sp := s.sp - 1, mem := s.mem.write (s.sp - 1).toNat v, requests := s.requests ++ [.write (s.sp - 1) v] }
      else .fault (.outOfBounds (s.sp - 1)
        { mem := s.mem, out := s.out, requests := s.requests ++ [.write (s.sp - 1) v] }) := by
  exact memWrite_eq (s := { s with sp := s.sp - 1 }) hc _ _

/-- `popWord` on an Idle channel, whole. -/
theorem popWord_eq {s : State} (hc : s.channel = .idle) :
    popWord s =
      if inBounds s.sp then
        .next (s.mem.read s.sp.toNat, { s with sp := s.sp + 1, requests := s.requests ++ [.read s.sp] })
      else .fault (.outOfBounds s.sp { mem := s.mem, out := s.out, requests := s.requests ++ [.read s.sp] }) := by
  rw [popWord, memRead_eq hc]
  split <;> rfl

/-- `trapEnter` on an Idle channel, whole: it cannot fault. -/
theorem trapEnter_eq {s : State} (hc : s.channel = .idle) (vec : Word) :
    trapEnter vec s = .next { s with
      mode := .kernel, inInterrupt := true, sp := 1997, pc := vec,
      mem := (s.mem.write 1998 s.sp).write 1997 s.pc,
      requests := s.requests ++ [.write 1998 s.sp, .write 1997 s.pc] } := by
  have h1 : inBounds 1998#32 = true := by decide
  have h2 : inBounds 1997#32 = true := by decide
  simp [trapEnter, pushWord_eq, hc, h1, h2]

/-- `trapReturn` on an Idle channel where both pops are inside memory. -/
theorem trapReturn_eq {s : State} (hc : s.channel = .idle) (h1 : inBounds s.sp = true) (h2 : inBounds (s.sp + 1) = true) :
    trapReturn s = .next { s with
      mode := .user, inInterrupt := false, pc := s.mem.read s.sp.toNat, sp := s.mem.read (s.sp + 1).toNat,
      requests := s.requests ++ [.read s.sp, .read (s.sp + 1)] } := by
  rw [trapReturn, popWord_eq hc, if_pos h1, andThen_next, popWord_eq (by exact hc), if_pos (by exact h2), andThen_next]
  simp

/-- Everything a `pushWord` that answers can have done. -/
theorem pushWord_next {v : Word} {s t : State} (h : pushWord v s = .next t) :
    s.channel = .idle ∧ inBounds (s.sp - 1) = true ∧
      t = { s with
        sp := s.sp - 1, mem := s.mem.write (s.sp - 1).toNat v, requests := s.requests ++ [.write (s.sp - 1) v] } :=
  memWrite_next (s := { s with sp := s.sp - 1 }) h

/-- Everything a `popWord` that answers can have done. -/
theorem popWord_next {s : State} {r : Word × State} (h : popWord s = .next r) :
    s.channel = .idle ∧ inBounds s.sp = true ∧ r.1 = s.mem.read s.sp.toNat ∧
      r.2 = { s with sp := s.sp + 1, requests := s.requests ++ [.read s.sp] } := by
  obtain ⟨q, hq, hr⟩ := andThen_eq_next.1 h
  obtain ⟨hc, hb, h1, h2⟩ := memRead_next hq
  cases hr
  exact ⟨hc, hb, h1, by rw [h2]⟩

/-- Everything a `loadAc` that answers can have done. -/
theorem loadAc_next {a n : Word} {s t : State} (h : loadAc a n s = .next t) :
    s.channel = .idle ∧ inBounds a = true ∧
      t = { s with ac := s.mem.read a.toNat, pc := s.pc + n, requests := s.requests ++ [.read a] } := by
  obtain ⟨q, hq, hr⟩ := andThen_eq_next.1 h
  obtain ⟨hc, hb, h1, h2⟩ := memRead_next hq
  cases hr
  exact ⟨hc, hb, by rw [h2, h1]; rfl⟩

/-- A `trapEnter` that answers found the slot Idle, and has done what `trapEnter_eq` says. -/
theorem trapEnter_next {vec : Word} {s t : State} (h : trapEnter vec s = .next t) :
    s.channel = .idle ∧ t = { s with
      mode := .kernel, inInterrupt := true, sp := 1997, pc := vec,
      mem := (s.mem.write 1998 s.sp).write 1997 s.pc,
      requests := s.requests ++ [.write 1998 s.sp, .write 1997 s.pc] } := by
  have hc : s.channel = .idle := by
    obtain ⟨q, hq, -⟩ := andThen_eq_next.1 h
    exact (pushWord_next hq).1
  rw [trapEnter_eq hc] at h
  cases h
  exact ⟨hc, rfl⟩

/-- Everything a `trapReturn` that answers can have done. -/
theorem trapReturn_next {s t : State} (h : trapReturn s = .next t) :
    s.channel = .idle ∧ inBounds s.sp = true ∧ inBounds (s.sp + 1) = true ∧ t = { s with
      mode := .user, inInterrupt := false, pc := s.mem.read s.sp.toNat, sp := s.mem.read (s.sp + 1).toNat,
      requests := s.requests ++ [.read s.sp, .read (s.sp + 1)] } := by
  obtain ⟨q, hq, h2⟩ := andThen_eq_next.1 h
  obtain ⟨r, hr, -⟩ := andThen_eq_next.1 h2
  obtain ⟨hc, hb, -, hq2⟩ := popWord_next hq
  obtain ⟨-, hb2, -, -⟩ := popWord_next hr
  rw [hq2] at hb2
  rw [trapReturn_eq hc hb hb2] at h
  cases h
  exact ⟨hc, hb, hb2, rfl⟩

/-- The only ways a `pushWord` can fault. -/
theorem pushWord_fault {v : Word} {s : State} {f : Fault} (h : pushWord v s = .fault f) :
    f = .channelMisuse (.write (s.sp - 1) v) ∧ s.channel ≠ .idle ∨ inBounds (s.sp - 1) = false ∧
      f = .outOfBounds (s.sp - 1) { mem := s.mem, out := s.out, requests := s.requests ++ [.write (s.sp - 1) v] } :=
  memWrite_fault (s := { s with sp := s.sp - 1 }) h

/-- The only ways a `popWord` can fault. -/
theorem popWord_fault {s : State} {f : Fault} (h : popWord s = .fault f) :
    f = .channelMisuse (.read s.sp) ∧ s.channel ≠ .idle ∨ inBounds s.sp = false ∧
      f = .outOfBounds s.sp { mem := s.mem, out := s.out, requests := s.requests ++ [.read s.sp] } := by
  rcases andThen_eq_fault.1 h with h | ⟨q, -, hq⟩
  · exact memRead_fault h
  · cases hq

/-- The only ways a `loadAc` can fault. -/
theorem loadAc_fault {a n : Word} {s : State} {f : Fault} (h : loadAc a n s = .fault f) :
    f = .channelMisuse (.read a) ∧ s.channel ≠ .idle ∨ inBounds a = false ∧
      f = .outOfBounds a { mem := s.mem, out := s.out, requests := s.requests ++ [.read a] } := by
  rcases andThen_eq_fault.1 h with h | ⟨q, -, hq⟩
  · exact memRead_fault h
  · cases hq

/-- The draw lies in `RAND_LO .. RAND_HI`. -/
theorem draw_range (n : Nat) : 1 ≤ (draw n).toInt ∧ (draw n).toInt ≤ 100 := by
  have h : (Config.randSource n).toNat % 100 < 100 := Nat.mod_lt _ (by decide)
  have hd : (draw n).toNat = 1 + (Config.randSource n).toNat % 100 := by
    simp only [draw, Word.toNat_ofNat]
    omega
  rw [Word.toInt_eq, hd]
  split <;> omega

end Sys2Proof.Machine
end

