-- ==== Sys2Proof/Laws/Step.lean ====
section
/-! SUPPORT. What a fetch, the timer check and a step can do, said once: proofs about steps cite these inversions and do
not unfold `step`. -/

namespace Sys2Proof.Machine

theorem inMemory_iff (a : Word) : InMemory a ↔ inBounds a = true := (inBounds_iff_toInt a).symm

theorem not_inMemory_iff (a : Word) : ¬InMemory a ↔ inBounds a = false := by
  rw [inMemory_iff, Bool.not_eq_true]

theorem checkProt_of_not_violates {a : Word} {s : State} (h : ¬Violates a s) : checkProt a s = .next s :=
  checkProt_pass fun hu => by
    by_contra hc
    exact h ⟨hu, by omega⟩

/-- The opcode map gives back the instruction whose opcode a word is. -/
theorem openOpcode_opcodeOf (i : Instr) :
    openOpcode (opcodeOf i) = some (.op i) ∧ operandOf i = none ∨
      ∃ f a, openOpcode (opcodeOf i) = some (.opArg f) ∧ operandOf i = some a ∧ f a = i := by
  cases i <;> first | exact .inl ⟨rfl, rfl⟩ | exact .inr ⟨_, _, rfl, rfl, rfl⟩

/-- What the opcode map opens is an instruction with that word as its opcode. -/
theorem openOpcode_some {w : Word} {o : Opened} (h : openOpcode w = some o) :
    (∃ i, o = .op i ∧ opcodeOf i = w ∧ operandOf i = none) ∨
      ∃ f, o = .opArg f ∧ ∀ a, opcodeOf (f a) = w ∧ operandOf (f a) = some a := by
  unfold openOpcode at h
  split at h
  · subst_vars; cases h; exact .inl ⟨_, rfl, rfl, rfl⟩
  · split at h <;> first
    | cases h; done
    | (rename_i hw
       have e : BitVec.ofNat XLEN w.toNat = w := by simp
       rw [hw] at e
       subst e
       cases h
       first | exact .inl ⟨_, rfl, rfl, rfl⟩ | exact .inr ⟨_, rfl, fun _ => ⟨rfl, rfl⟩⟩)

/-- The fetch of a one-word instruction. -/
theorem fetchInstr_op {s : State} {i : Instr} (hc : s.channel = .idle) (hb : inBounds s.pc = true)
    (hw : s.mem.read s.pc.toNat = opcodeOf i) (hi : openOpcode (opcodeOf i) = some (.op i)) :
    fetchInstr s = .next (i, { s with requests := s.requests ++ [.read s.pc] }) := by
  simp only [fetchInstr, memRead_eq hc, hb, if_true, andThen_next, hw, hi]

/-- The fetch of a two-word instruction, its operand in memory. -/
theorem fetchInstr_opArg {s : State} {w : Word} {f : Word → Instr} (hc : s.channel = .idle)
    (hb : inBounds s.pc = true) (hw : s.mem.read s.pc.toNat = w) (hi : openOpcode w = some (.opArg f))
    (hb2 : inBounds (s.pc + 1) = true) :
    fetchInstr s = .next (f (s.mem.read (s.pc + 1).toNat),
      { s with requests := s.requests ++ [.read s.pc, .read (s.pc + 1)] }) := by
  simp only [fetchInstr, memRead_eq hc, hb, if_true, andThen_next, hw, hi, fetchOperand]
  rw [memRead_eq (by exact hc)]
  simp [show inBounds (s.pc + 1#32) = true from hb2]

/-- Everything a fetch that answers can have done. -/
theorem fetchInstr_next {s : State} {r : Instr × State} (h : fetchInstr s = .next r) :
    s.channel = .idle ∧ inBounds s.pc = true ∧ s.mem.read s.pc.toNat = opcodeOf r.1 ∧
      (∀ a, operandOf r.1 = some a → inBounds (s.pc + 1) = true ∧ s.mem.read (s.pc + 1).toNat = a) ∧
      r.2 = { s with requests := s.requests ++ fetchRequests r.1 s.pc } := by
  obtain ⟨q, hq, hr⟩ := andThen_eq_next.1 h
  obtain ⟨hc, hb, h1, h2⟩ := memRead_next hq
  cases ho : openOpcode q.1 with
  | none => rw [ho] at hr; cases hr
  | some o =>
    rw [ho] at hr
    rcases openOpcode_some ho with ⟨i, rfl, hi, hn⟩ | ⟨f, rfl, hf⟩
    · cases hr
      refine ⟨hc, hb, by rw [hi, h1], by simp [hn], ?_⟩
      simp only [h2, fetchRequests, formatOf, hn]
    · obtain ⟨p, hp, hr⟩ := andThen_eq_next.1 hr
      cases hr
      obtain ⟨-, hb2, h3, h4⟩ := memRead_next hp
      rw [h2] at hb2 h3 h4
      refine ⟨hc, hb, by rw [(hf p.1).1, h1], fun a ha => ?_, ?_⟩
      · rw [(hf p.1).2] at ha
        cases ha
        exact ⟨hb2, h3.symm⟩
      · simp [h4, fetchRequests, formatOf, (hf p.1).2]

/-- Everything a timer check that answers can have done: nothing (not counted), counted, taken, or dropped. -/
theorem timerCheck_next {b : Bool} {s t : State} (h : timerCheck b s = .next t) :
    b = true ∧ t = s ∨
    b = false ∧ s.interruptCounter + 1 ≠ s.timeToInterrupt ∧
      t = { s with interruptCounter := s.interruptCounter + 1 } ∨
    b = false ∧ s.interruptCounter + 1 = s.timeToInterrupt ∧ s.inInterrupt = true ∧ t = { s with interruptCounter := 0 } ∨
    b = false ∧ s.interruptCounter + 1 = s.timeToInterrupt ∧ s.inInterrupt = false ∧ s.channel = .idle ∧
      t = { s with
        interruptCounter := 0, mode := .kernel, inInterrupt := true, sp := 1997, pc := 1000,
        mem := (s.mem.write 1998 s.sp).write 1997 s.pc,
        requests := s.requests ++ [.write 1998 s.sp, .write 1997 s.pc] } := by
  cases b with
  | true =>
    simp only [timerCheck, countGate] at h
    cases h
    exact .inl ⟨rfl, rfl⟩
  | false =>
    simp only [timerCheck, countGate, if_true] at h
    split at h
    · rename_i he
      simp only [timerDue] at h
      split at h
      · rename_i hi
        obtain ⟨hc, ht⟩ := trapEnter_next h
        exact .inr (.inr (.inr ⟨rfl, he, hi, hc, ht⟩))
      · rename_i hi
        rw [if_pos trivial] at h
        cases h
        exact .inr (.inr (.inl ⟨rfl, he, by simpa using hi, rfl⟩))
    · rename_i he
      cases h
      exact .inr (.inl ⟨rfl, he, rfl⟩)

/-- Everything a step that answers can have done: with Status Running and the slot Idle, it fetched the instruction `i`
whose words stand at `PC`, executed it to `u`, and `t` is `u` after the timer check. -/
theorem step_next {s t : State} (h : step s = .next t) :
    s.status = .running ∧ s.channel = .idle ∧ inBounds s.pc = true ∧
      ∃ i u, s.mem.read s.pc.toNat = opcodeOf i ∧
        (∀ a, operandOf i = some a → inBounds (s.pc + 1) = true ∧ s.mem.read (s.pc + 1).toNat = a) ∧
        exec i { s with requests := fetchRequests i s.pc } = .next u ∧ afterExec s.inInterrupt u = .next t := by
  unfold step at h
  split at h
  · rename_i hs
    obtain ⟨r, hr, h⟩ := andThen_eq_next.1 h
    obtain ⟨u, hu, ht⟩ := andThen_eq_next.1 h
    obtain ⟨hc, hb, hw, ha, h2⟩ := fetchInstr_next hr
    rw [h2] at hu
    exact ⟨hs, hc, hb, r.1, u, hw, ha, hu, ht⟩
  · cases h
  · cases h

theorem step_of_running {s : State} (h : s.status = .running) : step s = runStep s := by
  unfold step
  rw [h]

/-- A step that faults with a running machine: in its fetch, or in the instruction it fetched, or in what follows. -/
theorem step_fault {s : State} {f : Fault} (h : step s = .fault f) :
    f = .notRunning s.status ∧ s.status ≠ .running ∨
    s.status = .running ∧ fetchInstr { s with requests := [] } = .fault f ∨
    s.status = .running ∧ s.channel = .idle ∧ inBounds s.pc = true ∧
      ∃ i, s.mem.read s.pc.toNat = opcodeOf i ∧
        (∀ a, operandOf i = some a → inBounds (s.pc + 1) = true ∧ s.mem.read (s.pc + 1).toNat = a) ∧
        (exec i { s with requests := fetchRequests i s.pc } = .fault f ∨
          ∃ u, exec i { s with requests := fetchRequests i s.pc } = .next u ∧ afterExec s.inInterrupt u = .fault f) := by
  unfold step at h
  split at h
  · rename_i hs
    rcases andThen_eq_fault.1 h with h | ⟨r, hr, h⟩
    · exact .inr (.inl ⟨hs, h⟩)
    · obtain ⟨hc, hb, hw, ha, h2⟩ := fetchInstr_next hr
      refine .inr (.inr ⟨hs, hc, hb, r.1, hw, ha, ?_⟩)
      rw [h2] at h
      exact andThen_eq_fault.1 h
  · rename_i hs; cases h; exact .inl ⟨by rw [hs], by simp [hs]⟩
  · rename_i k hs; cases h; exact .inl ⟨by rw [hs], by simp [hs]⟩

/-- The only ways a fetch can fault. -/
theorem fetchInstr_fault {s : State} {f : Fault} (h : fetchInstr s = .fault f) :
    s.channel ≠ .idle ∧ f = .channelMisuse (.read s.pc) ∨
    inBounds s.pc = false ∧
      f = .outOfBounds s.pc { mem := s.mem, out := s.out, requests := s.requests ++ [.read s.pc] } ∨
    inBounds s.pc = true ∧ openOpcode (s.mem.read s.pc.toNat) = none ∧
      f = .invalidInstruction (s.mem.read s.pc.toNat)
        { mem := s.mem, out := s.out, requests := s.requests ++ [.read s.pc] } ∨
    inBounds s.pc = true ∧ inBounds (s.pc + 1) = false ∧
      f = .outOfBounds (s.pc + 1)
        { mem := s.mem, out := s.out, requests := s.requests ++ [.read s.pc, .read (s.pc + 1)] } := by
  rcases andThen_eq_fault.1 h with h | ⟨q, hq, hd⟩
  · rcases memRead_fault h with ⟨h, hc⟩ | ⟨hb, h⟩
    · exact .inl ⟨hc, h⟩
    · exact .inr (.inl ⟨hb, h⟩)
  · obtain ⟨hc, hb, h1, h2⟩ := memRead_next hq
    rw [h1, h2] at hd
    cases ho : openOpcode (s.mem.read s.pc.toNat) with
    | none => rw [ho] at hd; cases hd; exact .inr (.inr (.inl ⟨hb, rfl, rfl⟩))
    | some o =>
      rw [ho] at hd
      cases o with
      | op i => cases hd
      | opArg g =>
        rcases andThen_eq_fault.1 hd with hf | ⟨p, -, hp⟩
        · rcases memRead_fault hf with ⟨-, hn⟩ | ⟨hb2, hf⟩
          · exact absurd hc hn
          · exact .inr (.inr (.inr ⟨hb, hb2, by simpa using hf⟩))
        · cases hp

/-- The timer check faults only by misuse of a slot that is not Idle. -/
theorem afterExec_fault {b : Bool} {s : State} {f : Fault} (h : afterExec b s = .fault f) : s.channel ≠ .idle := by
  intro hc
  unfold afterExec at h
  split at h
  · unfold timerCheck at h
    split at h
    · split at h
      · simp only [timerDue] at h
        split at h
        · rw [trapEnter_eq (by exact hc)] at h; cases h
        · split at h <;> cases h
      · cases h
    · cases h
  · cases h
  · cases h

/-- What follows Execute, told by the Status it left. -/
theorem afterExec_next {b : Bool} {s t : State} (h : afterExec b s = .next t) :
    s.status = .running ∧ timerCheck b s = .next t ∨ s.status ≠ .running ∧ t = s := by
  unfold afterExec at h
  split at h
  · exact .inl ⟨by assumption, h⟩
  · cases h; exact .inr ⟨by simp_all, rfl⟩
  · cases h; exact .inr ⟨by simp_all, rfl⟩

end Sys2Proof.Machine
end

