-- ==== Sys2Proof/Laws/Exec.lean ====
section
/-! SUPPORT. For each instruction that goes to memory: everything it can have done when it answers a next state. (The
others answer a next state on every path, by their definition.) -/

namespace Sys2Proof.Machine

theorem execLoadAddr_next {a : Word} {s t : State} (h : execLoadAddr a s = .next t) :
    (s.mode = .user → a.toInt < 1000) ∧ s.channel = .idle ∧ inBounds a = true ∧
      t = { s with ac := s.mem.read a.toNat, pc := s.pc + 2, requests := s.requests ++ [.read a] } := by
  obtain ⟨q, hq, hl⟩ := andThen_eq_next.1 h
  obtain ⟨rfl, hp⟩ := checkProt_next hq
  exact ⟨hp, loadAc_next hl⟩

theorem execLoadInd_next {a : Word} {s t : State} (h : execLoadInd a s = .next t) :
    (s.mode = .user → a.toInt < 1000) ∧ s.channel = .idle ∧ inBounds a = true ∧
      inBounds (s.mem.read a.toNat) = true ∧
      t = { s with
        ac := s.mem.read (s.mem.read a.toNat).toNat, pc := s.pc + 2,
        requests := s.requests ++ [.read a, .read (s.mem.read a.toNat)] } := by
  obtain ⟨q, hq, hd⟩ := andThen_eq_next.1 h
  obtain ⟨rfl, hp⟩ := checkProt_next hq
  obtain ⟨r, hr, hl⟩ := andThen_eq_next.1 hd
  obtain ⟨hc, hb, h1, h2⟩ := memRead_next hr
  obtain ⟨-, hb2, h3⟩ := loadAc_next hl
  rw [h1] at hb2
  exact ⟨hp, hc, hb, hb2, by simp [h3, h1, h2]⟩

theorem execLoadIdxX_next {a : Word} {s t : State} (h : execLoadIdxX a s = .next t) :
    (s.mode = .user → a.toInt < 1000) ∧ s.channel = .idle ∧ inBounds (a + s.x) = true ∧
      t = { s with
        ac := s.mem.read (a + s.x).toNat, pc := s.pc + 2, requests := s.requests ++ [.read (a + s.x)] } := by
  obtain ⟨q, hq, hl⟩ := andThen_eq_next.1 h
  obtain ⟨rfl, hp⟩ := checkProt_next hq
  exact ⟨hp, loadAc_next hl⟩

theorem execLoadIdxY_next {a : Word} {s t : State} (h : execLoadIdxY a s = .next t) :
    (s.mode = .user → a.toInt < 1000) ∧ s.channel = .idle ∧ inBounds (a + s.y) = true ∧
      t = { s with
        ac := s.mem.read (a + s.y).toNat, pc := s.pc + 2, requests := s.requests ++ [.read (a + s.y)] } := by
  obtain ⟨q, hq, hl⟩ := andThen_eq_next.1 h
  obtain ⟨rfl, hp⟩ := checkProt_next hq
  exact ⟨hp, loadAc_next hl⟩

theorem execLoadSpX_next {s t : State} (h : execLoadSpX s = .next t) :
    s.channel = .idle ∧ inBounds (s.sp + s.x) = true ∧
      t = { s with
        ac := s.mem.read (s.sp + s.x).toNat, pc := s.pc + 1, requests := s.requests ++ [.read (s.sp + s.x)] } :=
  loadAc_next h

theorem execStore_next {a : Word} {s t : State} (h : execStore a s = .next t) :
    (s.mode = .user → a.toInt < 1000) ∧ s.channel = .idle ∧ inBounds a = true ∧
      t = { s with mem := s.mem.write a.toNat s.ac, pc := s.pc + 2, requests := s.requests ++ [.write a s.ac] } := by
  obtain ⟨q, hq, hd⟩ := andThen_eq_next.1 h
  obtain ⟨rfl, hp⟩ := checkProt_next hq
  obtain ⟨r, hr, ht⟩ := andThen_eq_next.1 hd
  obtain ⟨hc, hb, h1⟩ := memWrite_next hr
  cases ht
  exact ⟨hp, hc, hb, by rw [h1]; rfl⟩

theorem execCall_next {a : Word} {s t : State} (h : execCall a s = .next t) :
    s.channel = .idle ∧ inBounds (s.sp - 1) = true ∧
      t = { s with
        sp := s.sp - 1, pc := a, mem := s.mem.write (s.sp - 1).toNat (s.pc + 2),
        requests := s.requests ++ [.write (s.sp - 1) (s.pc + 2)] } := by
  obtain ⟨q, hq, h⟩ := andThen_eq_next.1 h
  obtain ⟨hc, hb, h1⟩ := pushWord_next hq
  cases h
  exact ⟨hc, hb, by rw [h1]⟩

theorem execRet_next {s t : State} (h : execRet s = .next t) :
    s.channel = .idle ∧ inBounds s.sp = true ∧
      t = { s with pc := s.mem.read s.sp.toNat, sp := s.sp + 1, requests := s.requests ++ [.read s.sp] } := by
  obtain ⟨q, hq, h⟩ := andThen_eq_next.1 h
  obtain ⟨hc, hb, h1, h2⟩ := popWord_next hq
  cases h
  exact ⟨hc, hb, by rw [h1, h2]⟩

theorem execPush_next {s t : State} (h : execPush s = .next t) :
    s.channel = .idle ∧ inBounds (s.sp - 1) = true ∧
      t = { s with
        sp := s.sp - 1, pc := s.pc + 1, mem := s.mem.write (s.sp - 1).toNat s.ac,
        requests := s.requests ++ [.write (s.sp - 1) s.ac] } := by
  obtain ⟨q, hq, h⟩ := andThen_eq_next.1 h
  obtain ⟨hc, hb, h1⟩ := pushWord_next hq
  cases h
  exact ⟨hc, hb, by rw [h1]; rfl⟩

theorem execPop_next {s t : State} (h : execPop s = .next t) :
    s.channel = .idle ∧ inBounds s.sp = true ∧
      t = { s with
        ac := s.mem.read s.sp.toNat, sp := s.sp + 1, pc := s.pc + 1, requests := s.requests ++ [.read s.sp] } := by
  obtain ⟨q, hq, h⟩ := andThen_eq_next.1 h
  obtain ⟨hc, hb, h1, h2⟩ := popWord_next hq
  cases h
  exact ⟨hc, hb, by rw [h1, h2]; rfl⟩

theorem execInt_next {s t : State} (h : execInt s = .next t) :
    s.inInterrupt = true ∧ t = advance 1 s ∨
      s.inInterrupt = false ∧ s.channel = .idle ∧ t = { s with
        mode := .kernel, inInterrupt := true, sp := 1997, pc := 1500,
        mem := (s.mem.write 1998 s.sp).write 1997 (s.pc + 1),
        requests := s.requests ++ [.write 1998 s.sp, .write 1997 (s.pc + 1)] } := by
  unfold execInt at h
  split at h
  · cases h
    exact .inl ⟨by assumption, rfl⟩
  · rename_i hi
    exact .inr ⟨by simpa using hi, trapEnter_next h⟩

theorem execIRet_next {s t : State} (h : execIRet s = .next t) :
    s.channel = .idle ∧ inBounds s.sp = true ∧ inBounds (s.sp + 1) = true ∧ t = { s with
      mode := .user, inInterrupt := false, pc := s.mem.read s.sp.toNat, sp := s.mem.read (s.sp + 1).toNat,
      requests := s.requests ++ [.read s.sp, .read (s.sp + 1)] } :=
  trapReturn_next h

theorem execHalt_next {s t : State} (h : execHalt s = .next t) :
    s.channel = .idle ∧ t = { s with status := .halted, requests := s.requests ++ [.done] } := by
  obtain ⟨pc, sp, ac, x, y, mode, svc, cnt, mem, ch, out, st, T, d, rq⟩ := s
  cases ch with
  | pending r => simp [execHalt, send] at h
  | idle =>
    simp only [execHalt, send, andThen_next] at h
    cases h
    exact ⟨rfl, rfl⟩

theorem execPut_next {p : Word} {s t : State} (h : execPut p s = .next t) :
    p = 1 ∧ t = advance 2 (emit .integer s.ac s) ∨ p = 2 ∧ t = advance 2 (emit .character s.ac s) ∨
      p ≠ 1 ∧ p ≠ 2 ∧ t = advance 2 s := by
  unfold execPut at h
  split at h
  · cases h; exact .inl ⟨by assumption, rfl⟩
  · split at h
    · cases h; exact .inr (.inl ⟨by assumption, rfl⟩)
    · cases h; exact .inr (.inr ⟨by assumption, by assumption, rfl⟩)

/-- A fault of an access to memory at `a`: memory and `Out` as they were, the access the last request. -/
def AccessFault (s : State) (f : Fault) : Prop :=
  ∃ (a : Word) (more : List Request), inBounds a = false ∧
    f = .outOfBounds a { mem := s.mem, out := s.out, requests := s.requests ++ more } ∧
    (more.getLast? = some (.read a) ∨ ∃ v, more.getLast? = some (.write a v))

theorem accessFault_read {s : State} {f : Fault} {a : Word} (hb : inBounds a = false)
    (hf : f = .outOfBounds a { mem := s.mem, out := s.out, requests := s.requests ++ [.read a] }) : AccessFault s f :=
  ⟨a, _, hb, hf, .inl rfl⟩

theorem accessFault_write {s : State} {f : Fault} {a v : Word} (hb : inBounds a = false)
    (hf : f = .outOfBounds a { mem := s.mem, out := s.out, requests := s.requests ++ [.write a v] }) : AccessFault s f :=
  ⟨a, _, hb, hf, .inr ⟨v, rfl⟩⟩

theorem loadAc_accessFault {a n : Word} {s : State} {f : Fault} (hc : s.channel = .idle) (h : loadAc a n s = .fault f) :
    AccessFault s f := by
  rcases loadAc_fault h with ⟨-, hn⟩ | ⟨hb, hf⟩
  · exact absurd hc hn
  · exact accessFault_read hb hf

/-- A protection check followed by something: it faults by the check, or what follows faults in the same state. -/
theorem checked_fault {a : Word} {s : State} {f : Fault} {k : State → Host.Outcome State Fault Refusal}
    (h : andThen (checkProt a s) k = .fault f) :
    s.mode = .user ∧ 1000 ≤ a.toInt ∧ f = .memoryViolation a s.observed ∨ k s = .fault f := by
  rcases andThen_eq_fault.1 h with h | ⟨t, ht, h⟩
  · exact .inl (checkProt_fault h)
  · rw [(checkProt_next ht).1] at h
    exact .inr h

theorem execLoadInd_fault {a : Word} {s : State} {f : Fault} (hc : s.channel = .idle) (h : execLoadInd a s = .fault f) :
    s.mode = .user ∧ 1000 ≤ a.toInt ∧ f = .memoryViolation a s.observed ∨ AccessFault s f := by
  rcases checked_fault h with h | h
  · exact .inl h
  · refine .inr ?_
    rcases andThen_eq_fault.1 h with h | ⟨r, hr, h⟩
    · rcases memRead_fault h with ⟨-, hn⟩ | ⟨hb, hf⟩
      · exact absurd hc hn
      · exact accessFault_read hb hf
    · obtain ⟨-, -, -, h2⟩ := memRead_next hr
      rcases loadAc_fault h with ⟨-, hn⟩ | ⟨hb, hf⟩
      · rw [h2] at hn; exact absurd hc hn
      · exact ⟨r.1, [.read a, .read r.1], hb, by simpa [h2] using hf, .inl rfl⟩

theorem execIRet_fault {s : State} {f : Fault} (hc : s.channel = .idle) (h : execIRet s = .fault f) : AccessFault s f := by
  rcases andThen_eq_fault.1 h with h | ⟨r, hr, h⟩
  · rcases popWord_fault h with ⟨-, hn⟩ | ⟨hb, hf⟩
    · exact absurd hc hn
    · exact accessFault_read hb hf
  · obtain ⟨-, -, -, h2⟩ := popWord_next hr
    rcases andThen_eq_fault.1 h with h | ⟨q, -, h⟩
    · rcases popWord_fault h with ⟨-, hn⟩ | ⟨hb, hf⟩
      · rw [h2] at hn; exact absurd hc hn
      · rw [h2] at hb hf
        exact ⟨s.sp + 1, [.read s.sp, .read (s.sp + 1)], hb, by simpa using hf, .inl rfl⟩
    · cases h

theorem pushed_fault {v : Word} {s : State} {f : Fault} {k : State → State} (hc : s.channel = .idle)
    (h : andThen (pushWord v s) (fun t => .next (k t)) = .fault f) : AccessFault s f := by
  rcases andThen_eq_fault.1 h with h | ⟨r, -, h⟩
  · rcases pushWord_fault h with ⟨-, hn⟩ | ⟨hb, hf⟩
    · exact absurd hc hn
    · exact accessFault_write hb hf
  · cases h

theorem popped_fault {s : State} {f : Fault} {k : Word × State → State} (hc : s.channel = .idle)
    (h : andThen (popWord s) (fun r => .next (k r)) = .fault f) : AccessFault s f := by
  rcases andThen_eq_fault.1 h with h | ⟨r, -, h⟩
  · rcases popWord_fault h with ⟨-, hn⟩ | ⟨hb, hf⟩
    · exact absurd hc hn
    · exact accessFault_read hb hf
  · cases h

/-- The opcodes whose operand is protection-checked (20_memory.md R63). -/
def checkedOperand : Instr → Option Word
  | .loadAddr a | .loadInd a | .loadIdxX a | .loadIdxY a | .store a => some a
  | .loadValue _ | .put _ | .jump _ | .jumpIfEqual _ | .jumpIfNotEqual _ | .call _ => none
  | .loadSpX | .rand | .addX | .addY | .subX | .subY | .incX | .decX => none
  | .copyToX | .copyFromX | .copyToY | .copyFromY | .copyToSP | .copyFromSP => none
  | .ret | .push | .pop | .int | .iRet | .halt => none

/-- Everything a faulting instruction can have done with the slot Idle: a protection violation of its checked operand, or
an access outside memory. -/
theorem exec_fault {i : Instr} {s : State} {f : Fault} (hc : s.channel = .idle) (h : exec i s = .fault f) :
    (∃ a, checkedOperand i = some a ∧ s.mode = .user ∧ 1000 ≤ a.toInt ∧ f = .memoryViolation a s.observed) ∨
      AccessFault s f := by
  cases i
  case loadAddr a =>
    rcases checked_fault h with h | h
    · exact .inl ⟨a, rfl, h⟩
    · exact .inr (loadAc_accessFault hc h)
  case loadInd a =>
    rcases execLoadInd_fault hc h with h | h
    · exact .inl ⟨a, rfl, h⟩
    · exact .inr h
  case loadIdxX a =>
    rcases checked_fault h with h | h
    · exact .inl ⟨a, rfl, h⟩
    · exact .inr (loadAc_accessFault hc h)
  case loadIdxY a =>
    rcases checked_fault h with h | h
    · exact .inl ⟨a, rfl, h⟩
    · exact .inr (loadAc_accessFault hc h)
  case store a =>
    rcases checked_fault h with h | h
    · exact .inl ⟨a, rfl, h⟩
    · refine .inr ?_
      rcases andThen_eq_fault.1 h with h | ⟨r, -, h⟩
      · rcases memWrite_fault h with ⟨-, hn⟩ | ⟨hb, hf⟩
        · exact absurd hc hn
        · exact accessFault_write hb hf
      · cases h
  case loadSpX => exact .inr (loadAc_accessFault hc h)
  case call a => exact .inr (pushed_fault (k := fun t => { t with pc := a }) hc h)
  case push => exact .inr (pushed_fault (k := advance 1) hc h)
  case ret => exact .inr (popped_fault (k := fun r => { r.2 with pc := r.1 }) hc h)
  case pop => exact .inr (popped_fault (k := fun r => advance 1 { r.2 with ac := r.1 }) hc h)
  case iRet => exact .inr (execIRet_fault hc h)
  case int =>
    simp only [exec, execInt] at h
    split at h
    · cases h
    · rw [trapEnter_eq (by exact hc)] at h; cases h
  case halt =>
    simp only [exec, execHalt, send, hc, andThen_next] at h
    cases h
  case put p =>
    simp only [exec, execPut] at h
    split at h
    · cases h
    · split at h <;> cases h
  all_goals cases h

end Sys2Proof.Machine
end

