-- ==== Sys2Proof/Laws/PerInstr.lean ====
section
/-! SUPPORT. The family `Encoding`: what every instruction's words are as syntax (30_encoding.md R80 to R84), one lemma per
constructor. -/

namespace Sys2Proof.Laws.Encoding

/-- The instruction has as many words as its format says, its first word opens to that same format, and its opcode is
one of the 31. -/
def Statement (i : Instr) : Prop :=
  (encode i).length = (formatOf i).words ∧
    (openOpcode (opcodeOf i)).map Opened.format = some (formatOf i) ∧
    (1 ≤ (opcodeOf i).toInt ∧ (opcodeOf i).toInt ≤ 30 ∨ (opcodeOf i).toInt = 50)

theorem loadValue (a : Word) : Statement (.loadValue a) := ⟨rfl, rfl, by simp [opcodeOf]⟩
theorem loadAddr (a : Word) : Statement (.loadAddr a) := ⟨rfl, rfl, by simp [opcodeOf]⟩
theorem loadInd (a : Word) : Statement (.loadInd a) := ⟨rfl, rfl, by simp [opcodeOf]⟩
theorem loadIdxX (a : Word) : Statement (.loadIdxX a) := ⟨rfl, rfl, by simp [opcodeOf]⟩
theorem loadIdxY (a : Word) : Statement (.loadIdxY a) := ⟨rfl, rfl, by simp [opcodeOf]⟩
theorem loadSpX : Statement .loadSpX := ⟨rfl, rfl, by simp [opcodeOf]⟩
theorem store (a : Word) : Statement (.store a) := ⟨rfl, rfl, by simp [opcodeOf]⟩
theorem rand : Statement .rand := ⟨rfl, rfl, by simp [opcodeOf]⟩
theorem put (a : Word) : Statement (.put a) := ⟨rfl, rfl, by simp [opcodeOf]⟩
theorem addX : Statement .addX := ⟨rfl, rfl, by simp [opcodeOf]⟩
theorem addY : Statement .addY := ⟨rfl, rfl, by simp [opcodeOf]⟩
theorem subX : Statement .subX := ⟨rfl, rfl, by simp [opcodeOf]⟩
theorem subY : Statement .subY := ⟨rfl, rfl, by simp [opcodeOf]⟩
theorem copyToX : Statement .copyToX := ⟨rfl, rfl, by simp [opcodeOf]⟩
theorem copyFromX : Statement .copyFromX := ⟨rfl, rfl, by simp [opcodeOf]⟩
theorem copyToY : Statement .copyToY := ⟨rfl, rfl, by simp [opcodeOf]⟩
theorem copyFromY : Statement .copyFromY := ⟨rfl, rfl, by simp [opcodeOf]⟩
theorem copyToSP : Statement .copyToSP := ⟨rfl, rfl, by simp [opcodeOf]⟩
theorem copyFromSP : Statement .copyFromSP := ⟨rfl, rfl, by simp [opcodeOf]⟩
theorem jump (a : Word) : Statement (.jump a) := ⟨rfl, rfl, by simp [opcodeOf]⟩
theorem jumpIfEqual (a : Word) : Statement (.jumpIfEqual a) := ⟨rfl, rfl, by simp [opcodeOf]⟩
theorem jumpIfNotEqual (a : Word) : Statement (.jumpIfNotEqual a) := ⟨rfl, rfl, by simp [opcodeOf]⟩
theorem call (a : Word) : Statement (.call a) := ⟨rfl, rfl, by simp [opcodeOf]⟩
theorem ret : Statement .ret := ⟨rfl, rfl, by simp [opcodeOf]⟩
theorem incX : Statement .incX := ⟨rfl, rfl, by simp [opcodeOf]⟩
theorem decX : Statement .decX := ⟨rfl, rfl, by simp [opcodeOf]⟩
theorem push : Statement .push := ⟨rfl, rfl, by simp [opcodeOf]⟩
theorem pop : Statement .pop := ⟨rfl, rfl, by simp [opcodeOf]⟩
theorem int : Statement .int := ⟨rfl, rfl, by simp [opcodeOf]⟩
theorem iRet : Statement .iRet := ⟨rfl, rfl, by simp [opcodeOf]⟩
theorem halt : Statement .halt := ⟨rfl, rfl, by simp [opcodeOf]⟩

end Sys2Proof.Laws.Encoding
end

