-- ==== Sys2Proof/Tests/Slice0.lean ====
section
/-! SUPPORT. Tests. The expected results are those of spec/95_test_vectors.md (V1 to V117), the opcode map
30_encoding.md R85, or a rule named beside the test. The witnesses show that the hypotheses of the statements can be met,
at the ends of the ranges they speak of. -/

namespace Sys2Proof.Tests

open Sys2Proof Sys2Proof.Machine

/-- Memory with the named words, every other word 0. -/
def memOf (cells : List (Nat × Word)) : Memory := cells.foldl (fun m c => m.write c.1 c.2) []

/-- The reset state with the named words in memory. -/
def start (cells : List (Nat × Word)) : State := { State.reset with mem := memOf cells }

/-- The same inside a handler: Kernel mode, an interrupt in service. -/
def startK (cells : List (Nat × Word)) : State :=
  { State.reset with mem := memOf cells, mode := .kernel, inInterrupt := true }

/-- A view of the next state; nothing if there is none. -/
def see {α : Type} (o : Host.Outcome State Fault Refusal) (f : State → α) : Option α :=
  match o with
  | .next t => some (f t)
  | .fault _ => none
  | .refused _ => none

/-- The fault of a step; nothing if there is none. -/
def stop (o : Host.Outcome State Fault Refusal) : Option Fault :=
  match o with
  | .next _ => none
  | .fault f => some f
  | .refused _ => none

/-- The refusal; nothing if there is none. -/
def turnedAway (o : Host.Outcome State Fault Refusal) : Option Refusal :=
  match o with
  | .next _ => none
  | .fault _ => none
  | .refused r => some r

/-- What stays observable of a state after its step faulted with the named requests and nothing else changed. -/
def left (s : State) (rs : List Request) : Observed := { mem := s.mem, out := s.out, requests := rs }

/-! ### Well-formedness: what each check refuses -/

theorem test_fitsAt_refuses_operand_at_2000 :
    Instr.fitsAt (.loadValue 5) 1999 = false ∧ Instr.fitsAt (.loadValue 5) 1998 = true ∧
      Instr.fitsAt .halt 1999 = true := by decide

theorem test_fitsAt_refuses_outside_memory :
    Instr.fitsAt .halt 2000 = false ∧ Instr.fitsAt .halt (-1) = false ∧ Instr.fitsAt .halt 0 = true := by decide

theorem test_image_refuses_address :
    Image.ok [(0, 50), (2000, 0)] = false ∧ Image.ok [(-1, 0)] = false ∧ Image.ok [(0, 50), (1999, 0)] = true := by
  decide

theorem test_image_refuses_value :
    Image.ok [(0, 2147483648)] = false ∧ Image.ok [(0, -2147483649)] = false ∧
      Image.ok [(0, 2147483647), (1, -2147483648)] = true := by decide

theorem test_interval_refuses :
    intervalOk 0 = false ∧ intervalOk (-1) = false ∧ intervalOk 2147483648 = false ∧ intervalOk 1 = true ∧
      intervalOk 2147483647 = true := by decide

/-! ### Decoding: every instruction by a word written out from 30_encoding.md R85, bit by bit -/

theorem test_decode_loadValue :
    decode [0b00000000000000000000000000000001#32, 0b11111111111111111111111111111001#32] =
      .ok (.loadValue (-7), []) := rfl
theorem test_decode_loadAddr :
    decode [0b00000000000000000000000000000010#32, 0b00000000000000000000001111100111#32] =
      .ok (.loadAddr 999, []) := rfl
theorem test_decode_loadInd : decode [0b00000000000000000000000000000011#32, 10] = .ok (.loadInd 10, []) := rfl
theorem test_decode_loadIdxX : decode [0b00000000000000000000000000000100#32, 50] = .ok (.loadIdxX 50, []) := rfl
theorem test_decode_loadIdxY : decode [0b00000000000000000000000000000101#32, 60] = .ok (.loadIdxY 60, []) := rfl
theorem test_decode_loadSpX : decode [0b00000000000000000000000000000110#32, 50] = .ok (.loadSpX, [50]) := rfl
theorem test_decode_store : decode [0b00000000000000000000000000000111#32, 999] = .ok (.store 999, []) := rfl
theorem test_decode_rand : decode [0b00000000000000000000000000001000#32] = .ok (.rand, []) := rfl
theorem test_decode_put : decode [0b00000000000000000000000000001001#32, 2] = .ok (.put 2, []) := rfl
theorem test_decode_addX : decode [0b00000000000000000000000000001010#32] = .ok (.addX, []) := rfl
theorem test_decode_addY : decode [0b00000000000000000000000000001011#32] = .ok (.addY, []) := rfl
theorem test_decode_subX : decode [0b00000000000000000000000000001100#32] = .ok (.subX, []) := rfl
theorem test_decode_subY : decode [0b00000000000000000000000000001101#32] = .ok (.subY, []) := rfl
theorem test_decode_copyToX : decode [0b00000000000000000000000000001110#32] = .ok (.copyToX, []) := rfl
theorem test_decode_copyFromX : decode [0b00000000000000000000000000001111#32] = .ok (.copyFromX, []) := rfl
theorem test_decode_copyToY : decode [0b00000000000000000000000000010000#32] = .ok (.copyToY, []) := rfl
theorem test_decode_copyFromY : decode [0b00000000000000000000000000010001#32] = .ok (.copyFromY, []) := rfl
theorem test_decode_copyToSP : decode [0b00000000000000000000000000010010#32] = .ok (.copyToSP, []) := rfl
theorem test_decode_copyFromSP : decode [0b00000000000000000000000000010011#32] = .ok (.copyFromSP, []) := rfl
theorem test_decode_jump : decode [0b00000000000000000000000000010100#32, 1000] = .ok (.jump 1000, []) := rfl
theorem test_decode_jumpIfEqual :
    decode [0b00000000000000000000000000010101#32, 40] = .ok (.jumpIfEqual 40, []) := rfl
theorem test_decode_jumpIfNotEqual :
    decode [0b00000000000000000000000000010110#32, 40] = .ok (.jumpIfNotEqual 40, []) := rfl
theorem test_decode_call : decode [0b00000000000000000000000000010111#32, 200] = .ok (.call 200, []) := rfl
theorem test_decode_ret : decode [0b00000000000000000000000000011000#32] = .ok (.ret, []) := rfl
theorem test_decode_incX : decode [0b00000000000000000000000000011001#32] = .ok (.incX, []) := rfl
theorem test_decode_decX : decode [0b00000000000000000000000000011010#32] = .ok (.decX, []) := rfl
theorem test_decode_push : decode [0b00000000000000000000000000011011#32] = .ok (.push, []) := rfl
theorem test_decode_pop : decode [0b00000000000000000000000000011100#32] = .ok (.pop, []) := rfl
theorem test_decode_int : decode [0b00000000000000000000000000011101#32] = .ok (.int, []) := rfl
theorem test_decode_iRet : decode [0b00000000000000000000000000011110#32] = .ok (.iRet, []) := rfl
theorem test_decode_halt : decode [0b00000000000000000000000000110010#32] = .ok (.halt, []) := rfl

/-- 30_encoding.md R86: no other word is an opcode; high bits are not ignored. -/
theorem test_decode_invalid :
    decode [0] = .error (.invalidInstruction 0) ∧ decode [31] = .error (.invalidInstruction 31) ∧
      decode [49] = .error (.invalidInstruction 49) ∧ decode [51] = .error (.invalidInstruction 51) ∧
      decode [-1] = .error (.invalidInstruction (-1)) ∧
      decode [0x80000001#32, 5] = .error (.invalidInstruction 0x80000001#32) := ⟨rfl, rfl, rfl, rfl, rfl, rfl⟩

theorem test_decode_short : decode [] = .error .noWords ∧ decode [1] = .error (.noOperand 1) := ⟨rfl, rfl⟩

/-- The table's numbering: bits 31..0 are the first word, 63..32 the second. -/
theorem test_decodeTableWord :
    decodeTableWord 64 (1 + 7 * 2 ^ 32) = some (.loadValue 7) ∧ decodeTableWord 32 (1 + 7 * 2 ^ 32) = some (.loadValue 0) ∧
      decodeTableWord 32 50 = some .halt ∧ decodeTableWord 32 0 = none := by decide

theorem test_withFetchWord_runs :
    see (step (State.reset.withFetchWord 64 (1 + 7 * 2 ^ 32))) (fun t => (t.ac, t.pc)) = some (7, 2) := by decide

/-! ### Single steps: loads and the store -/

theorem test_V1_loadValue :
    see (step (start [(0, 1), (1, -7)])) (fun t => (t.ac, t.pc, t.interruptCounter, t.requests)) =
      some (-7, 2, 1, [.read 0, .read 1]) := by decide

theorem test_V2_loadValue_at_1999 :
    stop (step { start [(1999, 1)] with pc := 1999 }) =
      some (.outOfBounds 2000 (left (start [(1999, 1)]) [.read 1999, .read 2000])) := by decide

theorem test_V3_loadAddr :
    see (step (start [(0, 2), (1, 999), (999, 11)])) (fun t => (t.ac, t.pc, t.requests)) =
      some (11, 2, [.read 0, .read 1, .read 999]) := by decide

theorem test_V4_loadAddr_violation :
    stop (step (start [(0, 2), (1, 1000)])) =
      some (.memoryViolation 1000 (left (start [(0, 2), (1, 1000)]) [.read 0, .read 1])) := by decide

theorem test_V9_loadInd_pointer_outside :
    stop (step (start [(0, 3), (1, 10), (10, 2000)])) =
      some (.outOfBounds 2000
        (left (start [(0, 3), (1, 10), (10, 2000)]) [.read 0, .read 1, .read 10, .read 2000])) := by decide

theorem test_V11_loadInd_hole :
    see (step (start [(0, 3), (1, 10), (10, 1500), (1500, 30)])) (fun t => (t.ac, t.pc, t.mode)) =
      some (30, 2, .user) := by decide

theorem test_V12_loadIdxX_checks_before_index :
    stop (step { start [(0, 4), (1, 1000)] with x := -1 }) =
      some (.memoryViolation 1000 (left (start [(0, 4), (1, 1000)]) [.read 0, .read 1])) := by decide

theorem test_V13_loadIdxX :
    see (step { start [(0, 4), (1, 900), (1100, 5)] with x := 200 }) (fun t => (t.ac, t.pc, t.x)) =
      some (5, 2, 200) := by decide

theorem test_V16_loadIdxY_outside :
    stop (step { startK [(0, 5), (1, 1990)] with y := 10 }) =
      some (.outOfBounds 2000 (left (start [(0, 5), (1, 1990)]) [.read 0, .read 1, .read 2000])) := by decide

theorem test_V17_loadIdxY :
    see (step { start [(0, 5), (1, 60), (58, 4)] with y := -2, x := 9 }) (fun t => (t.ac, t.pc, t.y)) =
      some (4, 2, -2) := by decide

theorem test_V19_loadSpX :
    see (step { start [(0, 6), (998, 21)] with sp := 997, x := 1 }) (fun t => (t.ac, t.pc, t.sp)) =
      some (21, 1, 997) := by decide

theorem test_V21_loadSpX_wraps :
    see (step { start [(0, 6)] with sp := 0x80000000#32, x := 0x80000000#32 }) (fun t => (t.ac, t.pc)) =
      some (6, 1) := by decide

theorem test_V23_store_violation :
    stop (step { start [(0, 7), (1, 1000)] with ac := 4 }) =
      some (.memoryViolation 1000 (left (start [(0, 7), (1, 1000)]) [.read 0, .read 1])) := by decide

theorem test_V25_store_on_own_operand :
    see (step { start [(0, 7), (1, 1)] with ac := 4 }) (fun t => (t.mem, t.pc, t.requests)) =
      some ([(0, 7), (1, 4)], 2, [.read 0, .read 1, .write 1 4]) := by decide

/-! ### `Rand` and `Put` -/

theorem test_V32_rand_range :
    ∃ t, step (start [(0, 8)]) = .next t ∧ t.ac = draw 0 ∧ t.pc = 1 ∧ t.drawCount = 1 := ⟨_, rfl, rfl, rfl, rfl⟩

theorem test_V33_V37_put :
    see (step { start [(0, 9), (1, 1)] with ac := -5 }) (fun t => (t.out.map shown, t.pc, t.ac)) =
        some ([.decimal (-5)], 2, -5) ∧
      see (step { start [(0, 9), (1, -1)] with ac := 10 }) (fun t => (t.out, t.pc)) = some ([], 2) := by decide

theorem test_V38_put_character :
    see (step { start [(0, 9), (1, 2)] with ac := 321 }) (fun t => (t.out, t.out.map shown)) =
      some ([{ port := .character, value := 321 }], [.character 65]) := by decide

/-! ### Arithmetic and copies -/

theorem test_V41_addX_wraps :
    see (step { start [(0, 10)] with ac := 0x7FFFFFFF#32, x := 1 }) (fun t => (t.ac, t.x, t.pc)) =
      some (0x80000000#32, 1, 1) := by decide

theorem test_V42_addY :
    see (step { start [(0, 11)] with ac := -1, y := 1, x := 7 }) (fun t => (t.ac, t.y)) = some (0, 1) := by decide

theorem test_V44_subX_wraps :
    see (step { start [(0, 12)] with ac := 0x80000000#32, x := 1 }) (fun t => (t.ac, t.x)) =
      some (0x7FFFFFFF#32, 1) := by decide

theorem test_V46_subY :
    see (step { start [(0, 13)] with ac := 3, y := 10 }) (fun t => (t.ac, t.y)) = some (-7, 10) := by decide

theorem test_V48_copyToX :
    see (step { start [(0, 14)] with ac := -9, x := 3 }) (fun t => (t.x, t.ac)) = some (-9, -9) := by decide

theorem test_V49_copyFromX :
    see (step { start [(0, 15)] with ac := -9, x := 3 }) (fun t => (t.x, t.ac)) = some (3, 3) := by decide

theorem test_V50_copyToY :
    see (step { start [(0, 16)] with ac := -9, y := 3 }) (fun t => (t.y, t.ac)) = some (-9, -9) := by decide

theorem test_V51_copyFromY :
    see (step { start [(0, 17)] with ac := -9, y := 3 }) (fun t => (t.y, t.ac)) = some (3, 3) := by decide

theorem test_V52_copyToSP_unchecked :
    see (step { start [(0, 18)] with ac := 1500 }) (fun t => (t.sp, t.mode)) = some (1500, .user) := by decide

theorem test_V53_copyFromSP : see (step (start [(0, 19)])) (fun t => (t.ac, t.sp)) = some (999, 999) := by decide

theorem test_V54_incX_wraps :
    see (step { start [(0, 25)] with x := 0x7FFFFFFF#32 }) (fun t => (t.x, t.ac)) = some (0x80000000#32, 0) := by decide

theorem test_V57_decX : see (step (start [(0, 26)])) (fun t => (t.x, t.pc)) = some (-1, 1) := by decide

/-! ### Control transfer and stack -/

theorem test_V61_jump_unchecked :
    see (step (start [(0, 20), (1, -3)])) (fun t => (t.pc, t.interruptCounter)) = some (-3, 1) := by decide

theorem test_V63_V64_jumpIfEqual :
    see (step (start [(0, 21), (1, 40)])) (fun t => t.pc) = some 40 ∧
      see (step { start [(0, 21), (1, 40)] with ac := -1 }) (fun t => t.pc) = some 2 := by decide

theorem test_V65_V66_jumpIfNotEqual :
    see (step { start [(0, 22), (1, 40)] with ac := -1 }) (fun t => t.pc) = some 40 ∧
      see (step (start [(0, 22), (1, 40)])) (fun t => t.pc) = some 2 := by decide

theorem test_V67_call :
    see (step { start [(10, 23), (11, 200)] with pc := 10 }) (fun t => (t.sp, t.pc, t.mem.read 998, t.requests)) =
      some (998, 200, 12, [.read 10, .read 11, .write 998 12]) := by decide

theorem test_V69_call_over_its_own_opcode :
    see (step { start [(0, 23), (1, 200)] with sp := 1 }) (fun t => (t.sp, t.pc, t.mem.read 0)) =
      some (0, 200, 2) := by decide

theorem test_V70_ret :
    see (step { start [(0, 24), (998, 12)] with sp := 998 }) (fun t => (t.pc, t.sp)) = some (12, 999) := by decide

theorem test_V71_ret_outside :
    stop (step { start [(0, 24)] with sp := 2000 }) =
      some (.outOfBounds 2000 (left (start [(0, 24)]) [.read 0, .read 2000])) := by decide

theorem test_V80_push :
    see (step { start [(0, 27)] with ac := 42 }) (fun t => (t.sp, t.mem.read 998, t.mem.read 999, t.pc)) =
      some (998, 42, 0, 1) := by decide

theorem test_V82_push_outside :
    stop (step { start [(0, 27)] with sp := 0 }) =
      some (.outOfBounds (-1) (left (start [(0, 27)]) [.read 0, .write (-1) 0])) := by decide

theorem test_V83_pop :
    see (step { start [(0, 28), (998, 42)] with sp := 998 }) (fun t => (t.ac, t.sp, t.mem.read 998)) =
      some (42, 999, 42) := by decide

theorem test_V85_pop_at_1999 :
    see (step { start [(0, 28), (1999, 3)] with sp := 1999 }) (fun t => (t.ac, t.sp, t.pc)) =
      some (3, 2000, 1) := by decide

/-! ### System instructions, illegal opcodes, the timer -/

theorem test_V90_int :
    see (step { start [(5, 29)] with pc := 5, sp := 990, ac := 3 })
      (fun t => ((t.mode, t.inInterrupt, t.sp, t.pc), t.mem, t.ac, t.interruptCounter)) =
      some ((.kernel, true, 1997, 1500), [(5, 29), (1997, 6), (1998, 990)], 3, 1) := by decide

theorem test_V91_int_ignored :
    see (step { startK [(1600, 29)] with pc := 1600, sp := 1997 })
      (fun t => (t.pc, t.sp, t.mode, t.requests, t.interruptCounter)) =
      some (1601, 1997, .kernel, [.read 1600], 0) := by decide

theorem test_V92_iRet :
    see (step { startK [(1505, 30), (1997, 6), (1998, 990)] with pc := 1505, sp := 1997 })
      (fun t => (t.pc, t.sp, t.mode, t.inInterrupt, t.interruptCounter)) =
      some (6, 990, .user, false, 0) := by decide

theorem test_V94_iRet_second_pop_outside :
    stop (step { startK [(1505, 30), (1999, 7)] with pc := 1505, sp := 1999 }) =
      some (.outOfBounds 2000
        (left (start [(1505, 30), (1999, 7)]) [.read 1505, .read 1999, .read 2000])) := by decide

theorem test_V116_halt_is_not_counted :
    see (step { start [(0, 50)] with ac := 1, timeToInterrupt := 1 })
      (fun t => (t.status, t.pc, t.ac, t.interruptCounter, t.mode)) = some (.halted, 0, 1, 0, .user) := by decide

theorem test_V96_zero_word :
    stop (step State.reset) = some (.invalidInstruction 0 (left State.reset [.read 0])) := by decide

theorem test_V102_V103_fetch_outside :
    stop (step { State.reset with pc := 2000 }) = some (.outOfBounds 2000 (left State.reset [.read 2000])) ∧
      stop (step { State.reset with pc := -1 }) = some (.outOfBounds (-1) (left State.reset [.read (-1)])) := by decide

theorem test_V110_timer :
    see (step { start [(0, 25)] with timeToInterrupt := 1 })
      (fun t => ((t.x, t.interruptCounter), (t.mode, t.inInterrupt, t.sp, t.pc), t.mem)) =
      some ((1, 0), (.kernel, true, 1997, 1000), [(0, 25), (1997, 1), (1998, 999)]) := by decide

theorem test_V112_timer_dropped :
    see (step { start [(0, 29)] with timeToInterrupt := 1 })
      (fun t => (t.pc, t.interruptCounter, t.requests)) =
      some (1500, 0, [.read 0, .write 1998 999, .write 1997 1]) := by decide

theorem test_V113_iRet_not_counted :
    see (step { startK [(1000, 30), (1997, 6), (1998, 990)] with
      pc := 1000, sp := 1997, timeToInterrupt := 3, interruptCounter := 2 }) (fun t => (t.pc, t.interruptCounter)) =
      some (6, 2) := by decide

theorem test_V115_stray_iRet_then_timer :
    see (step { start [(20, 30), (997, 100), (998, 500)] with pc := 20, sp := 997, timeToInterrupt := 1 })
      (fun t => (t.pc, t.mem.read 1998, t.mem.read 1997, t.requests)) =
      some (1000, 500, 100, [.read 20, .read 997, .read 998, .write 1998 500, .write 1997 100]) := by decide

/-! ### The inputs of a run (00_scope.md R8) -/

theorem test_boot_later_entry_stands :
    see (bootState [(0, 50), (3, -1), (0, 25)] 3) (fun t => (t.mem.read 0, t.mem.read 3, t.mem.read 4, t.timeToInterrupt)) =
      some (25, -1, 0, 3) := by decide

theorem test_boot_refuses :
    turnedAway (bootState [] 0) = some (.badInterval 0) ∧
      turnedAway (bootState [(2000, 0)] 1) = some (.badImage [(2000, 0)]) := by decide

/-! ### Witnesses: the hypotheses of each statement are met -/

theorem witness_BootStateValues :
    ∀ t ∈ [(1 : Int), 2147483647], 1 ≤ t ∧ t ≤ 2147483647 ∧
      ∀ e ∈ ([(0, -2147483648), (1999, 2147483647)] : Image),
        0 ≤ e.1 ∧ e.1 ≤ 1999 ∧ -2147483648 ≤ e.2 ∧ e.2 ≤ 2147483647 := by decide

theorem witness_BootRefusesBadInputs_interval :
    ∀ t ∈ [(0 : Int), 2147483648], t < 1 ∨ 2147483647 < t := by decide

theorem witness_BootRefusesBadInputs_image :
    ∀ image ∈ ([[(-1, 0)], [(2000, 0)], [(0, -2147483649)], [(0, 2147483648)]] : List Image),
      ∃ e ∈ image, e.1 < 0 ∨ 1999 < e.1 ∨ e.2 < -2147483648 ∨ 2147483647 < e.2 := by decide

theorem witness_BootMeetsInvariant : ∃ s, bootState [(0, 50)] 1 = .next s := ⟨_, rfl⟩

theorem witness_Inv_user : Inv (start [(0, 25)]) := ⟨by decide, rfl, rfl, by decide, by decide⟩

theorem witness_Inv_kernel : Inv (startK [(0, 30)]) := ⟨by decide, rfl, rfl, by decide, by decide⟩

theorem witness_StepKeepsInvariant :
    ∃ t, Inv { start [(0, 25)] with timeToInterrupt := 1 } ∧
      step { start [(0, 25)] with timeToInterrupt := 1 } = .next t :=
  ⟨_, ⟨by decide, rfl, rfl, by decide, by decide⟩, rfl⟩

theorem witness_Ready (cells : List (Nat × Word)) : Ready (start cells) ∧ Ready (startK cells) :=
  ⟨⟨rfl, rfl⟩, ⟨rfl, rfl⟩⟩

theorem witness_UndefinedOpcodesFault :
    ∀ w ∈ [(0 : Word), 31, 49, 51, -1, 0x7FFFFFFF#32], ∀ p ∈ [(0 : Word), 1999],
      InMemory p ∧ ¬DefinedOpcode ((start [(0, w), (1999, w)]).mem.read p.toNat) := by
  simp [InMemory, DefinedOpcode, start, memOf, Memory.write, Memory.read]

theorem witness_UndefinedOpcodesFault_converse :
    ∃ w seen, step (start [(0, 31)]) = .fault (.invalidInstruction w seen) := ⟨_, _, rfl⟩

theorem witness_StepRunsDecoded :
    InstrAt .halt { start [(1999, 50)] with pc := 1999 } ∧
      InstrAt (.put 1) { start [(1998, 9), (1999, 1)] with pc := 1998 } :=
  ⟨⟨rfl, rfl, trivial⟩, ⟨rfl, rfl, rfl, rfl, trivial⟩⟩

theorem witness_FetchesAreOnlyBoundsChecked :
    ¬InMemory (-1) ∧ ¬InMemory 2000 ∧ InMemory 0 ∧ InMemory 1999 ∧ formatOf .incX = .op ∧
      (start [(1999, 25)]).mem.read 1999 = opcodeOf .incX :=
  ⟨by simp [InMemory], by simp [InMemory], by simp [InMemory], by simp [InMemory], rfl, rfl⟩

theorem witness_FetchesAreOnlyBoundsChecked_operand :
    ∀ p ∈ [(0 : Word), 1998], 0 ≤ p.toInt ∧ p.toInt ≤ 1998 ∧ p ≠ 1999 := by simp

theorem witness_FetchesAreOnlyBoundsChecked_opArg :
    openOpcode ((start [(1999, 20)]).mem.read 1999) = some (.opArg .jump) := rfl

/-- For every instruction, a state that meets the hypotheses of `OperandFetchFaults`. -/
theorem witness_OperandFetchFaults (i : Instr) :
    ∃ s : State, Ready s ∧ s.pc = 1999 ∧ s.mem.read 1999 = opcodeOf i :=
  ⟨{ start [] with pc := 1999, mem := [(1999, opcodeOf i)] }, ⟨rfl, rfl⟩, rfl, rfl⟩

theorem witness_StoppedMachineHasNoStep :
    ({ start [] with status := .halted } : State).status ≠ .running ∧
      ({ start [] with status := .faulted .outOfBounds } : State).status ≠ .running := by decide

/-- The three clauses of the checked operands (`LoadAddr`, `LoadInd`, the indexed loads, `Store`) at the ends of their
ranges, in both modes. -/
theorem witness_checked_operands :
    (∀ a ∈ [(1000 : Word), 0x7FFFFFFF#32], Violates a (start [])) ∧
      (∀ a ∈ [(-1 : Word), 0x80000000#32], ¬Violates a (start []) ∧ ¬InMemory a) ∧
      (∀ a ∈ [(0 : Word), 999], ¬Violates a (start []) ∧ InMemory a) ∧
      (∀ a ∈ [(-1 : Word), 2000], ¬Violates a (startK []) ∧ ¬InMemory a) ∧
      (∀ a ∈ [(0 : Word), 1000, 1999], ¬Violates a (startK []) ∧ InMemory a) := by
  simp [Violates, InMemory, start, startK, State.reset]

theorem witness_memory_is_canonical :
    (start [(0, 7), (1, 1)]).mem.wf = true ∧ (startK [(1999, 5)]).mem.wf = true ∧ (start []).channel = .idle :=
  ⟨rfl, rfl, rfl⟩

theorem witness_LoadIndResult_pointers :
    ∀ p ∈ [(0 : Word), 1000, 1999, 2000, -1], p = (start [(999, p)]).mem.read (999 : Word).toNat := by
  simp [start, memOf, Memory.write, Memory.read]

theorem witness_IndexedLoadResults :
    let s : State := { start [] with x := 1, y := -1, sp := 1999 }
    ¬Violates 999 s ∧ InMemory (999 + s.x) ∧ InMemory (0 + s.x) ∧ InMemory (999 + s.y) ∧ ¬InMemory (0 + s.y) ∧
      ¬InMemory (-2 + s.x) ∧ ¬InMemory (s.sp + s.x) ∧ InMemory ((998 : Word) + s.x) := by
  simp [Violates, InMemory, start, State.reset]

theorem witness_PutResult_ports : (0 : Word) ≠ 1 ∧ (0 : Word) ≠ 2 ∧ (3 : Word) ≠ 1 ∧ (3 : Word) ≠ 2 := by decide

theorem witness_JumpResults :
    (start []).ac.toInt = 0 ∧ ({ start [] with ac := -1 } : State).ac.toInt ≠ 0 := by decide

/-- `Call`, `Push` (at `SP - 1`) and `Ret`, `Pop` (at `SP`) at the ends of the ranges. -/
theorem witness_stack_addresses :
    (∀ sp ∈ [(0 : Word), 2001, 0x80000000#32], ¬InMemory (sp - 1)) ∧ (∀ sp ∈ [(1 : Word), 2000], InMemory (sp - 1)) ∧
      (∀ sp ∈ [(-1 : Word), 2000], ¬InMemory sp) ∧ (∀ sp ∈ [(0 : Word), 1999], InMemory sp) := by
  simp [InMemory]

theorem witness_CallThenRetBalances :
    ∃ t, exec (.call 200) (start []) = .next t ∧ (start []).mem.wf = true ∧ t.channel = .idle := ⟨_, rfl, rfl, rfl⟩

theorem witness_PushThenPopRoundTrip :
    ∃ t, exec .push { start [] with ac := 42 } = .next t ∧ (start []).mem.wf = true := ⟨_, rfl, rfl⟩

theorem witness_IntResult : (start []).inInterrupt = false ∧ (startK []).inInterrupt = true := ⟨rfl, rfl⟩

theorem witness_IRetResult :
    (∀ sp ∈ [(-1 : Word), 2000], ¬InMemory sp ∧ sp ≠ 1999) ∧
      (∀ sp ∈ [(0 : Word), 1998], 0 ≤ sp.toInt ∧ sp.toInt ≤ 1998) := by
  simp [InMemory]

theorem witness_IntThenIRetRestores :
    ∃ t, exec .int (start []) = .next t ∧ (start []).mode = .user ∧ (start []).inInterrupt = false ∧
      t.channel = .idle := ⟨_, rfl, rfl, rfl, rfl⟩

theorem witness_HaltResult :
    InMemory (start [(0, 50)]).pc ∧ (start [(0, 50)]).mem.read (start [(0, 50)]).pc.toNat = 50 := by
  simp [InMemory, start, memOf, Memory.write, Memory.read, State.reset]

theorem witness_TimerCheckEffect_not_counted :
    ∃ t, InstrAt .incX (startK [(0, 25)]) ∧
      exec .incX { startK [(0, 25)] with requests := fetchRequests .incX 0 } = .next t ∧ t.status = .running ∧
      (startK [(0, 25)]).inInterrupt = true := ⟨_, ⟨rfl, rfl, trivial⟩, rfl, rfl, rfl⟩

theorem witness_TimerCheckEffect_counted :
    ∃ t, InstrAt .incX (start [(0, 25)]) ∧
      exec .incX { start [(0, 25)] with requests := fetchRequests .incX 0 } = .next t ∧ t.status = .running ∧
      (start [(0, 25)]).interruptCounter + 1 ≠ (start [(0, 25)]).timeToInterrupt :=
  ⟨_, ⟨rfl, rfl, trivial⟩, rfl, rfl, by decide⟩

theorem witness_TimerCheckEffect_taken :
    let s : State := { start [(0, 25)] with interruptCounter := 999 }
    ∃ t, InstrAt .incX s ∧ exec .incX { s with requests := fetchRequests .incX s.pc } = .next t ∧ t.status = .running ∧
      s.interruptCounter + 1 = s.timeToInterrupt ∧ t.inInterrupt = false :=
  ⟨_, ⟨rfl, rfl, trivial⟩, rfl, rfl, by decide, rfl⟩

theorem witness_TimerCheckEffect_dropped :
    let s : State := { start [(0, 29)] with interruptCounter := 999 }
    ∃ t, InstrAt .int s ∧ exec .int { s with requests := fetchRequests .int s.pc } = .next t ∧ t.status = .running ∧
      s.interruptCounter + 1 = s.timeToInterrupt ∧ t.inInterrupt = true :=
  ⟨_, ⟨rfl, rfl, trivial⟩, rfl, rfl, by decide, rfl⟩

theorem witness_ModeChanges_int :
    ∃ t, step (start [(0, 29)]) = .next t ∧ (start [(0, 29)]).mode = .user ∧ t.mode = .kernel := ⟨_, rfl, rfl, rfl⟩

theorem witness_ModeChanges_timer :
    ∃ t, step { start [(0, 25)] with timeToInterrupt := 1 } = .next t ∧ t.mode = .kernel := ⟨_, rfl, rfl⟩

theorem witness_ModeChanges_iRet :
    ∃ t, step (startK [(0, 30)]) = .next t ∧ (startK [(0, 30)]).mode = .kernel ∧ t.mode = .user := ⟨_, rfl, rfl, rfl⟩

theorem witness_MemoryViolationExactlyFromUserOperands :
    Violates 1000 (start [(0, 7), (1, 1000)]) ∧ InstrAt (.loadAddr 1000) (start [(0, 2), (1, 1000)]) ∧
      InstrAt (.loadInd 1000) (start [(0, 3), (1, 1000)]) ∧ InstrAt (.loadIdxX 1000) (start [(0, 4), (1, 1000)]) ∧
      InstrAt (.loadIdxY 1000) (start [(0, 5), (1, 1000)]) ∧ InstrAt (.store 1000) (start [(0, 7), (1, 1000)]) :=
  ⟨⟨rfl, by decide⟩, ⟨rfl, rfl, rfl, rfl, trivial⟩, ⟨rfl, rfl, rfl, rfl, trivial⟩, ⟨rfl, rfl, rfl, rfl, trivial⟩,
    ⟨rfl, rfl, rfl, rfl, trivial⟩, ⟨rfl, rfl, rfl, rfl, trivial⟩⟩

theorem witness_MemoryViolation :
    ∃ a seen, step (start [(0, 5), (1, 1000)]) = .fault (.memoryViolation a seen) := ⟨_, _, rfl⟩

theorem witness_OutOfBoundsExactlyOutsideMemory :
    (-1 : Word).toInt < 0 ∧ (1999 : Int) < (2000 : Word).toInt := by decide

theorem witness_OutOfBounds_read :
    ∃ a seen, step (start [(0, 2), (1, -1)]) = .fault (.outOfBounds a seen) := ⟨_, _, rfl⟩

theorem witness_OutOfBounds_write :
    ∃ a seen, step (startK [(0, 7), (1, 2000)]) = .fault (.outOfBounds a seen) := ⟨_, _, rfl⟩

theorem witness_FaultLeavesMemoryAndOut :
    ∃ f seen, step (start [(0, 3), (1, 10), (10, 2000)]) = .fault f ∧ faultSeen f = some seen := ⟨_, _, rfl, rfl⟩

theorem witness_MemoryChangesOnlyByWriteRequests :
    ∃ t, step { start [(0, 7), (1, 999)] with ac := 4 } = .next t ∧
      ∀ a v : Word, Request.write a v ∈ t.requests → a.toNat ≠ 998 :=
  ⟨_, rfl, fun a v h => by
    have h' : Request.write a v ∈ [Request.read 0, .read 1, .write 999 4] := h
    simp only [List.mem_cons, List.not_mem_nil, reduceCtorEq, or_false, false_or, Request.write.injEq] at h'
    obtain ⟨rfl, -⟩ := h'
    decide⟩

theorem witness_OutputOnlyGrowsByPut : ∃ t, step (start [(0, 9), (1, 1)]) = .next t ∧ t.out ≠ [] := by
  exact ⟨_, rfl, by decide⟩

theorem witness_RegisterWriters_ac : see (step (start [(0, 19)])) (fun t => decide (t.ac ≠ 0)) = some true := by decide
theorem witness_RegisterWriters_x : see (step (start [(0, 25)])) (fun t => decide (t.x ≠ 0)) = some true := by decide
theorem witness_RegisterWriters_y :
    see (step { start [(0, 16)] with ac := 1 }) (fun t => decide (t.y ≠ 0)) = some true := by decide
theorem witness_RegisterWriters_sp : see (step (start [(0, 27)])) (fun t => decide (t.sp ≠ 999)) = some true := by decide

/-- The timer alternative of `RegisterWriters`: an `IncX` whose step changes `SP`. -/
theorem witness_RegisterWriters_timer :
    see (step { start [(0, 25)] with timeToInterrupt := 1 }) (fun t => (decide (t.sp ≠ 999), t.pc, t.sp, t.inInterrupt)) =
      some (true, 1000, 1997, true) := by decide

theorem witness_UserStoreKeepsSystemRegion_user :
    ∃ t, step { start [(0, 7), (1, 999)] with ac := 4 } = .next t ∧ (start [(0, 7), (1, 999)]).mode = .user ∧
      (start [(0, 7), (1, 999)]).mem.read 0 = 7 ∧ t.mode = .user := ⟨_, rfl, rfl, rfl, rfl⟩

theorem witness_UserStoreKeepsSystemRegion_timer :
    ∃ t, step { start [(0, 7), (1, 999)] with ac := 4, timeToInterrupt := 1 } = .next t ∧ t.mode = .kernel :=
  ⟨_, rfl, rfl⟩

theorem witness_EveryStepStartsWithItsFetch :
    (∃ t, step (start [(0, 25)]) = .next t) ∧
      ∃ f seen, step (start [(0, 2), (1, -1)]) = .fault f ∧ faultSeen f = some seen :=
  ⟨⟨_, rfl⟩, ⟨_, _, rfl, rfl⟩⟩

theorem witness_WriteIsSeenByNextRead :
    ∃ t, memWrite 1999 5 (start []) = .next t ∧ (start []).mem.wf = true ∧ InMemory 0 ∧ (0 : Word) ≠ 1999 :=
  ⟨_, rfl, rfl, by simp [InMemory], by decide⟩

theorem witness_CanonicalMemoryIsDetermined :
    Memory.wf [(0, 1), (1999, 2)] = true ∧ Memory.wf ((memOf [(1999, 2), (0, 3)]).write 0 1) = true ∧
      (memOf [(1999, 2), (0, 3)]).write 0 1 = [(0, 1), (1999, 2)] := ⟨rfl, rfl, rfl⟩

theorem witness_OnlyHaltEndsTheRun :
    (∃ t, step (start [(0, 50)]) = .next t) ∧ (∃ t, step (start [(0, 25)]) = .next t) := ⟨⟨_, rfl⟩, ⟨_, rfl⟩⟩

end Sys2Proof.Tests
end

section
/-! PROOF. The instruction cycle (40_cycle.md): what the fetch of an opcode or an operand answers, stated as equations, and
the statement about the checks of the two fetches. -/

namespace Sys2Proof.Machine

theorem andThen_assoc {α β γ : Type} (o : Host.Outcome α Fault Refusal) (f : α → Host.Outcome β Fault Refusal)
    (g : β → Host.Outcome γ Fault Refusal) :
    andThen (andThen o f) g = andThen o fun a => andThen (f a) g := by
  cases o <;> rfl

/-- A one-word instruction is the whole of what its opcode opens. -/
theorem openOpcode_of_formatOf_op {i : Instr} (h : formatOf i = .op) : openOpcode (opcodeOf i) = some (.op i) := by
  rcases openOpcode_opcodeOf i with ⟨ho, -⟩ | ⟨f, a, -, ha, -⟩
  · exact ho
  · simp [formatOf, ha] at h

/-- The opcode fetch outside memory (40_cycle.md R101). -/
theorem fetchInstr_outOfBounds {s : State} (hc : s.channel = .idle) (hb : inBounds s.pc = false) :
    fetchInstr s =
      .fault (.outOfBounds s.pc { mem := s.mem, out := s.out, requests := s.requests ++ [.read s.pc] }) := by
  simp [fetchInstr, memRead_eq hc, hb]

/-- After an `OP_ARG` opcode the fetch goes on with the operand, whether that is in memory or not (40_cycle.md R103). -/
theorem fetchInstr_opArg_eq {s : State} {f : Word → Instr} (hc : s.channel = .idle) (hb : inBounds s.pc = true)
    (ho : openOpcode (s.mem.read s.pc.toNat) = some (.opArg f)) :
    fetchInstr s =
      andThen (fetchOperand { s with requests := s.requests ++ [.read s.pc] }) fun q => .next (f q.1, q.2) := by
  simp only [fetchInstr, memRead_eq hc, hb, if_true, andThen_next, ho]

/-- The operand fetch inside memory: it looks at no field but `PC`, the channel and memory (40_cycle.md R103). -/
theorem fetchOperand_inBounds {s : State} (hc : s.channel = .idle) (hb : inBounds (s.pc + 1) = true) :
    fetchOperand s =
      .next (s.mem.read (s.pc + 1).toNat, { s with requests := s.requests ++ [.read (s.pc + 1)] }) := by
  rw [fetchOperand, memRead_eq hc, if_pos hb]

theorem fetchOperand_outOfBounds {s : State} (hc : s.channel = .idle) (hb : inBounds (s.pc + 1) = false) :
    fetchOperand s = .fault (.outOfBounds (s.pc + 1)
      { mem := s.mem, out := s.out, requests := s.requests ++ [.read (s.pc + 1)] }) := by
  rw [fetchOperand, memRead_eq hc, if_neg (Bool.eq_false_iff.1 hb)]

/-- A step is the fetch, with no request sent before it, then Execute and what follows it (40_cycle.md R100). -/
theorem step_of_fetch {s : State} (h : Ready s) {o : Host.Outcome (Instr × State) Fault Refusal}
    (ho : fetchInstr { s with requests := [] } = o) :
    step s = andThen o fun r => andThen (exec r.1 r.2) fun t => afterExec s.inInterrupt t := by
  rw [step_of_running h.running, runStep, ho]

/-- The address after one in `0..1998` is the next one of memory, with no wrap. -/
theorem next_address_inMemory {a : Word} (h0 : 0 ≤ a.toInt) (h1 : a.toInt ≤ 1998) :
    inBounds (a + 1) = true ∧ (a + 1).toNat = a.toNat + 1 := by
  have ha : a.toNat < 2000 := (inBounds_iff a).1 ((inBounds_iff_toInt a).2 ⟨h0, by omega⟩)
  constructor
  · rw [inBounds_iff_toInt, Word.toInt_add_one (by omega)]
    omega
  · exact (Word.toNat_add a 1).trans (Nat.mod_eq_of_lt (show a.toNat + 1 < 4294967296 by omega))

/-- Settles O11: each fetch is one `memRead`, whose only check is the bounds of its address; the mode occurs in no case. -/
theorem fetchesAreOnlyBoundsChecked : Obligations.FetchesAreOnlyBoundsChecked := by
  refine ⟨fun s hr hp => ?_, fun s i hr hp hi hw => ?_, fun s f hr hp ho => ?_,
    fun s hc => ⟨fun h0 h1 => ?_, fun hp => ?_⟩⟩
  · rw [step_of_fetch hr (fetchInstr_outOfBounds hr.channelIdle ((not_inMemory_iff _).1 hp))]
    rfl
  · rw [step_of_fetch hr (fetchInstr_op hr.channelIdle ((inMemory_iff _).1 hp) hw (openOpcode_of_formatOf_op hi))]
    rfl
  · rw [step_of_fetch hr (fetchInstr_opArg_eq hr.channelIdle ((inMemory_iff _).1 hp) ho), andThen_assoc]
    rfl
  · obtain ⟨hb, ha⟩ := next_address_inMemory h0 h1
    rw [fetchOperand_inBounds hc hb, ha]
  · have hb : s.pc + 1 = 2000 := by rw [hp]; rfl
    rw [fetchOperand_outOfBounds hc (by rw [hb]; rfl), hb]

end Sys2Proof.Machine
end

section
/-! PROOF. The loads and the store (41_load_store.md): what a two-word instruction is in memory, what follows a protection
check and a read into `AC`, stated as equations, and the statements about opcodes 1, 2, 3 and 7. -/

namespace Sys2Proof.Machine

/-- An instruction with an operand opens to the `OP_ARG` form. -/
theorem openOpcode_of_operandOf {i : Instr} {a : Word} (h : operandOf i = some a) :
    ∃ f, openOpcode (opcodeOf i) = some (.opArg f) := by
  rcases openOpcode_opcodeOf i with ⟨-, hn⟩ | ⟨f, b, ho, -, -⟩
  · rw [hn] at h
    cases h
  · exact ⟨f, ho⟩

/-- An instruction with an operand does not fit at 1999 (30_encoding.md R82). -/
theorem operandFetchFaults_of_operandOf {i : Instr} {a : Word} (h : operandOf i = some a) : OperandFetchFaults i := by
  intro s hr hp hw
  obtain ⟨-, -, step_opArg, operandFetch⟩ := fetchesAreOnlyBoundsChecked
  obtain ⟨f, hf⟩ := openOpcode_of_operandOf h
  have hm : InMemory s.pc := by
    rw [hp]
    exact (inMemory_iff _).2 rfl
  have ho : openOpcode (s.mem.read s.pc.toNat) = some (.opArg f) := by
    rw [hp, ← hf, ← hw]
    rfl
  have hfault := (operandFetch { s with requests := [.read s.pc] } hr.channelIdle).2 hp
  rw [step_opArg s f hr hm ho, hfault, andThen_fault, hp]
  rfl

/-- An instruction with an operand is the two words of its opcode and that operand. -/
theorem twoWords_of_operandOf {i : Instr} {a : Word} (h : operandOf i = some a) : TwoWords i (opcodeOf i) a := by
  refine ⟨?_, fun pc0 => ?_, operandFetchFaults_of_operandOf h⟩
  · simp only [encode, h, Option.toList_some]
  · simp only [fetchRequests, formatOf, h]

/-- Nothing after a protection check that refuses its operand is run (20_memory.md R62). -/
theorem checked_of_violates {a : Word} {s : State} (h : Violates a s) (k : State → Host.Outcome State Fault Refusal) :
    andThen (checkProt a s) k = .fault (.memoryViolation a s.observed) := by
  obtain ⟨hu, ha⟩ := h
  rw [checkProt_violation hu ha, andThen_fault]

/-- What follows a protection check that passes runs in the same state. -/
theorem checked_of_not_violates {a : Word} {s : State} (h : ¬Violates a s)
    (k : State → Host.Outcome State Fault Refusal) : andThen (checkProt a s) k = k s := by
  rw [checkProt_of_not_violates h, andThen_next]

theorem loadAc_inMemory {a : Word} {s : State} (hc : s.channel = .idle) (ha : InMemory a) (n : Word) :
    loadAc a n s =
      .next { s with ac := s.mem.read a.toNat, pc := s.pc + n, requests := s.requests ++ [.read a] } := by
  rw [loadAc, memRead_eq hc, if_pos ((inMemory_iff a).1 ha)]
  rfl

theorem loadAc_outside {a : Word} {s : State} (hc : s.channel = .idle) (ha : ¬InMemory a) (n : Word) :
    loadAc a n s = .fault (.outOfBounds a { mem := s.mem, out := s.out, requests := s.requests ++ [.read a] }) := by
  rw [loadAc, memRead_eq hc, if_neg (mt (inMemory_iff a).2 ha), andThen_fault]

/-- `LoadAddr` past its check is the load from its operand. -/
theorem execLoadAddr_of_not_violates {a : Word} {s : State} (h : ¬Violates a s) : execLoadAddr a s = loadAc a 2 s :=
  checked_of_not_violates h _

/-- `LoadInd` past its check, its operand outside memory: no pointer is read. -/
theorem execLoadInd_outside {a : Word} {s : State} (hc : s.channel = .idle) (h : ¬Violates a s) (ha : ¬InMemory a) :
    execLoadInd a s =
      .fault (.outOfBounds a { mem := s.mem, out := s.out, requests := s.requests ++ [.read a] }) := by
  rw [execLoadInd, checked_of_not_violates h, memRead_eq hc, if_neg (mt (inMemory_iff a).2 ha), andThen_fault]

/-- `LoadInd` past its check, its operand in memory: the load from the pointer read there, with no check of the pointer. -/
theorem execLoadInd_inMemory {a : Word} {s : State} (hc : s.channel = .idle) (h : ¬Violates a s) (ha : InMemory a) :
    execLoadInd a s = loadAc (s.mem.read a.toNat) 2 { s with requests := s.requests ++ [.read a] } := by
  rw [execLoadInd, checked_of_not_violates h, memRead_eq hc, if_pos ((inMemory_iff a).1 ha), andThen_next]

theorem execStore_outside {a : Word} {s : State} (hc : s.channel = .idle) (h : ¬Violates a s) (ha : ¬InMemory a) :
    execStore a s =
      .fault (.outOfBounds a { mem := s.mem, out := s.out, requests := s.requests ++ [.write a s.ac] }) := by
  rw [execStore, checked_of_not_violates h, memWrite_eq hc, if_neg (mt (inMemory_iff a).2 ha), andThen_fault]

theorem execStore_inMemory {a : Word} {s : State} (hc : s.channel = .idle) (h : ¬Violates a s) (ha : InMemory a) :
    execStore a s =
      .next { s with mem := s.mem.write a.toNat s.ac, pc := s.pc + 2, requests := s.requests ++ [.write a s.ac] } := by
  rw [execStore, checked_of_not_violates h, memWrite_eq hc, if_pos ((inMemory_iff a).1 ha)]
  rfl

/-- The exit code of a fault is not 0 (40_cycle.md R112), whatever the free value of log 21 is. -/
theorem exitCode_faulted_ne_zero {k : FaultKind} {c : Nat} (h : exitCode (.faulted k) = some c) : c ≠ 0 := by
  cases h
  exact Nat.succ_ne_zero _

/-- Settles O13: `LoadValue` is one register write and the move of `PC`, with no operation that can fault. -/
theorem loadValueResult : Obligations.LoadValueResult :=
  fun _ => ⟨fun _ => rfl, twoWords_of_operandOf rfl⟩

/-- Settles O14: the check comes first, then the one read of `loadAc`. -/
theorem loadAddrResult : Obligations.LoadAddrResult := by
  refine fun addr => ⟨fun s hc => ⟨fun hv => ?_, fun hv ha => ?_, fun hv ha => ?_⟩, twoWords_of_operandOf rfl⟩
  · exact checked_of_violates hv _
  · exact (execLoadAddr_of_not_violates hv).trans (loadAc_outside hc ha 2)
  · exact (execLoadAddr_of_not_violates hv).trans (loadAc_inMemory hc ha 2)

/-- Settles O15: after the check of `addr` and the read there, the pointer goes to `loadAc`, which looks at no mode. -/
theorem loadIndResult : Obligations.LoadIndResult := by
  refine fun addr => ⟨fun s hc => ⟨fun hv => ?_, fun hv ha => ?_, fun p hv ha hp => ?_⟩, twoWords_of_operandOf rfl⟩
  · exact checked_of_violates hv _
  · exact execLoadInd_outside hc hv ha
  · have hload : exec (.loadInd addr) s = loadAc p 2 { s with requests := s.requests ++ [.read addr] } := by
      rw [hp]
      exact execLoadInd_inMemory hc hv ha
    constructor <;> intro hm
    · rw [hload, loadAc_outside (by exact hc) hm, List.append_assoc]
      rfl
    · rw [hload, loadAc_inMemory (by exact hc) hm, List.append_assoc]
      rfl

/-- Settles O17: past the check `Store` is one `Memory.write`, whose read-after-write laws give the result and the frame. -/
theorem storeResult : Obligations.StoreResult := by
  refine fun addr => ⟨fun s hc hm => ⟨fun hv => ?_, fun hv ha => ?_, fun hv ha => ?_⟩, twoWords_of_operandOf rfl,
    fun _ => exitCode_faulted_ne_zero⟩
  · exact checked_of_violates hv _
  · exact execStore_outside hc hv ha
  · exact ⟨_, execStore_inMemory hc hv ha, read_write_same hm _ _, fun k hk => read_write_other hk _ _, rfl⟩

end Sys2Proof.Machine
end

section
/-! PROOF. The fatal faults (60_exceptions.md R180 to R184): the words the decoder refuses, everything a step that raises
a fatal fault can have done, and the statements about InvalidInstruction and OutOfBounds. -/

namespace Sys2Proof.Machine

theorem definedOpcode_iff_toNat (w : Word) : DefinedOpcode w ↔ 1 ≤ w.toNat ∧ w.toNat ≤ 30 ∨ w.toNat = 50 := by
  have hw := Word.toNat_lt w
  rw [DefinedOpcode, Word.toInt_eq]
  split <;> omega

theorem definedOpcode_opcodeOf (i : Instr) : DefinedOpcode (opcodeOf i) := by
  cases i <;> simp [DefinedOpcode, opcodeOf]

/-- A word is the opcode of what it opens. -/
theorem opcodeOf_of_openOpcode_some {w : Word} {o : Opened} (h : openOpcode w = some o) : ∃ i, opcodeOf i = w := by
  rcases openOpcode_some h with ⟨i, -, hi, -⟩ | ⟨f, -, hf⟩
  · exact ⟨i, hi⟩
  · exact ⟨f 0, (hf 0).1⟩

/-- Every word of `1..30`, and 50, is a key of the opcode map (30_encoding.md R85). -/
theorem openOpcode_isSome_of_definedOpcode {w : Word} (h : DefinedOpcode w) : (openOpcode w).isSome = true := by
  have hkeys : ∀ n ∈ 50 :: List.range' 1 30, (openOpcode (BitVec.ofNat XLEN n)).isSome = true := by decide
  have hmem : w.toNat ∈ 50 :: List.range' 1 30 := by
    rw [definedOpcode_iff_toNat] at h
    rw [List.mem_cons, List.mem_range'_1]
    omega
  have hw := hkeys w.toNat hmem
  rwa [BitVec.ofNat_toNat, BitVec.setWidth_eq] at hw

/-- The opcode map refuses exactly the words that are no defined opcode (30_encoding.md R86). -/
theorem openOpcode_eq_none_iff (w : Word) : openOpcode w = none ↔ ¬DefinedOpcode w := by
  constructor
  · intro ho hd
    have hs := openOpcode_isSome_of_definedOpcode hd
    rw [ho] at hs
    cases hs
  · intro hd
    cases ho : openOpcode w with
    | none => rfl
    | some o =>
      obtain ⟨i, rfl⟩ := opcodeOf_of_openOpcode_some ho
      exact absurd (definedOpcode_opcodeOf i) hd

/-- The fetch of a word that is no opcode: it ends after the one read (30_encoding.md R86). -/
theorem fetchInstr_undefined {s : State} (hc : s.channel = .idle) (hb : inBounds s.pc = true)
    (hw : ¬DefinedOpcode (s.mem.read s.pc.toNat)) :
    fetchInstr s = .fault (.invalidInstruction (s.mem.read s.pc.toNat)
      { mem := s.mem, out := s.out, requests := s.requests ++ [.read s.pc] }) := by
  rw [fetchInstr, memRead_eq hc, if_pos hb, andThen_next, (openOpcode_eq_none_iff _).2 hw]
  rfl

/-- The bounds check fails exactly below 0 or above 1999 (20_memory.md R52). -/
theorem inBounds_eq_false_iff_toInt (a : Word) : inBounds a = false ↔ a.toInt < 0 ∨ 1999 < a.toInt := by
  rw [Bool.eq_false_iff, Ne, inBounds_iff_toInt]
  omega

theorem memRead_outOfBounds {s : State} {a : Word} (hc : s.channel = .idle) (hb : inBounds a = false) :
    memRead a s = .fault (.outOfBounds a { mem := s.mem, out := s.out, requests := s.requests ++ [.read a] }) := by
  rw [memRead_eq hc, if_neg (Bool.eq_false_iff.1 hb)]

theorem memWrite_outOfBounds {s : State} {a v : Word} (hc : s.channel = .idle) (hb : inBounds a = false) :
    memWrite a v s =
      .fault (.outOfBounds a { mem := s.mem, out := s.out, requests := s.requests ++ [.write a v] }) := by
  rw [memWrite_eq hc, if_neg (Bool.eq_false_iff.1 hb)]

/-- Neither push of a trap entry can be out of bounds (60_exceptions.md R194). -/
theorem trapEnter_faultSeen {vec : Word} {s : State} {f : Fault} (h : trapEnter vec s = .fault f) : faultSeen f = none := by
  cases hc : s.channel with
  | idle =>
    rw [trapEnter_eq hc] at h
    cases h
  | pending r =>
    rw [trapEnter, pushWord, memWrite_pending (by exact hc)] at h
    cases h
    rfl

/-- What follows Execute raises no fatal fault (60_exceptions.md R190 to R194). -/
theorem afterExec_faultSeen {b : Bool} {s : State} {f : Fault} (h : afterExec b s = .fault f) : faultSeen f = none := by
  unfold afterExec timerCheck timerDue at h
  split at h
  · split_ifs at h
    exact trapEnter_faultSeen h
  · cases h
  · cases h

/-- The requests sent before count as sent by the access too, which stays the last one. -/
theorem AccessFault.from_start {s : State} {rs : List Request} {f : Fault} (h : AccessFault { s with requests := rs } f) :
    AccessFault { s with requests := [] } f := by
  obtain ⟨a, more, hb, hf, hlast⟩ := h
  refine ⟨a, rs ++ more, hb, hf, ?_⟩
  rw [List.getLast?_append]
  rcases hlast with hlast | ⟨v, hlast⟩
  · exact .inl (by rw [hlast]; rfl)
  · exact .inr ⟨v, by rw [hlast]; rfl⟩

/-- A fetch that raises a fatal fault made an access outside memory, or read a word that opens nothing. -/
theorem fetchInstr_fatalFault {s : State} {f : Fault} {seen : Observed} (h : fetchInstr s = .fault f)
    (hseen : faultSeen f = some seen) :
    AccessFault s f ∨
      openOpcode (s.mem.read s.pc.toNat) = none ∧
        f = .invalidInstruction (s.mem.read s.pc.toNat)
          { mem := s.mem, out := s.out, requests := s.requests ++ [.read s.pc] } := by
  rcases fetchInstr_fault h with ⟨-, rfl⟩ | ⟨hb, hf⟩ | ⟨-, ho, hf⟩ | ⟨-, hb, hf⟩
  · cases hseen
  · exact .inl (accessFault_read hb hf)
  · exact .inr ⟨ho, hf⟩
  · exact .inl ⟨_, _, hb, hf, .inl rfl⟩

/-- An instruction stands where its opcode and its operand, if it has one, were read. -/
theorem instrAt_of_reads {i : Instr} {s : State} (hb : inBounds s.pc = true) (hw : s.mem.read s.pc.toNat = opcodeOf i)
    (ha : ∀ a, operandOf i = some a → inBounds (s.pc + 1) = true ∧ s.mem.read (s.pc + 1).toNat = a) : InstrAt i s := by
  refine ⟨hb, hw, ?_⟩
  cases ho : operandOf i with
  | none => trivial
  | some a =>
    obtain ⟨hb1, hr⟩ := ha a ho
    exact ⟨hb1, hr, trivial⟩

/-- Everything a step that raises a fatal fault can have done (60_exceptions.md R182 to R184): an access outside memory, or
the fetch of a word that opens nothing, or the check of an operand that violates. -/
theorem step_fatalFault {s : State} {f : Fault} {seen : Observed} (h : step s = .fault f)
    (hseen : faultSeen f = some seen) :
    AccessFault { s with requests := [] } f ∨
    openOpcode (s.mem.read s.pc.toNat) = none ∧
      f = .invalidInstruction (s.mem.read s.pc.toNat) { mem := s.mem, out := s.out, requests := [.read s.pc] } ∨
    ∃ i a, InstrAt i s ∧ checkedOperand i = some a ∧ Violates a s ∧
      f = .memoryViolation a { mem := s.mem, out := s.out, requests := fetchRequests i s.pc } := by
  rcases step_fault h with ⟨rfl, -⟩ | ⟨-, hf⟩ | ⟨-, hc, hb, i, hw, ha, hx⟩
  · cases hseen
  · rcases fetchInstr_fatalFault hf hseen with hacc | hinv
    · exact .inl hacc
    · exact .inr (.inl hinv)
  · rcases hx with hx | ⟨u, -, hu⟩
    · rcases exec_fault (by exact hc) hx with ⟨a, hi, hm, h1000, hf⟩ | hacc
      · exact .inr (.inr ⟨i, a, instrAt_of_reads hb hw ha, hi, ⟨hm, h1000⟩, hf⟩)
      · exact .inl hacc.from_start
    · rw [afterExec_faultSeen hu] at hseen
      cases hseen

/-- Settles O9: what opens nothing is what is no defined opcode, and of all that raises a fatal fault only its fetch
raises InvalidInstruction. -/
theorem undefinedOpcodesFault : Obligations.UndefinedOpcodesFault := by
  refine ⟨fun s hr hp hw => ?_, fun s w seen h => ?_⟩
  · have hfetch := step_of_fetch hr (fetchInstr_undefined hr.channelIdle ((inMemory_iff _).1 hp) hw)
    rw [hfetch]
    exact ⟨rfl, rfl, fun _ => exitCode_faulted_ne_zero⟩
  · rcases step_fatalFault h rfl with ⟨a, more, -, hf, -⟩ | ⟨ho, hf⟩ | ⟨i, a, -, -, -, hf⟩
    · cases hf
    · cases hf
      exact ⟨rfl, (openOpcode_eq_none_iff _).1 ho⟩
    · cases hf

/-- Settles O34: both kinds of request go through the one bounds check, and of all that raises a fatal fault only an
access outside memory raises OutOfBounds. -/
theorem outOfBoundsExactlyOutsideMemory : Obligations.OutOfBoundsExactlyOutsideMemory := by
  refine ⟨fun s a v hc ha => ?_, fun s a seen h => ?_⟩
  · have hb := (inBounds_eq_false_iff_toInt a).2 ha
    exact ⟨memRead_outOfBounds hc hb, memWrite_outOfBounds hc hb⟩
  · rcases step_fatalFault h rfl with ⟨b, more, hb, hf, hlast⟩ | ⟨-, hf⟩ | ⟨i, b, -, -, -, hf⟩
    · cases hf
      exact ⟨(inBounds_eq_false_iff_toInt a).1 hb, hlast⟩
    · cases hf
    · cases hf

end Sys2Proof.Machine
end

section
/-! PROOF. Encoding (30_encoding.md): the decoder and the encoder agree. -/

namespace Sys2Proof

/-- A one-word opcode decodes to its instruction, whatever follows. -/
theorem decode_cons_op {w : Word} {i : Instr} (h : openOpcode w = some (.op i)) (rest : List Word) :
    decode (w :: rest) = .ok (i, rest) := by
  simp only [decode, h]

/-- An `OP_ARG` opcode decodes with the word after it as its operand. -/
theorem decode_cons_opArg {w : Word} {f : Word → Instr} (h : openOpcode w = some (.opArg f)) (a : Word)
    (rest : List Word) : decode (w :: a :: rest) = .ok (f a, rest) := by
  simp only [decode, h]

/-- Words that decode start with a word that opens: to the instruction itself, or to one whose operand comes next. -/
theorem decode_ok {ws rest : List Word} {i : Instr} (h : decode ws = .ok (i, rest)) :
    (∃ w, ws = w :: rest ∧ openOpcode w = some (.op i)) ∨
      ∃ w f a, ws = w :: a :: rest ∧ openOpcode w = some (.opArg f) ∧ i = f a := by
  unfold decode at h
  split at h
  · cases h
  · split at h
    · cases h
    · cases h
      exact .inl ⟨_, rfl, by assumption⟩
    · split at h
      · cases h
      · cases h
        exact .inr ⟨_, _, _, rfl, by assumption, rfl⟩

theorem encode_of_operandOf_none {i : Instr} (h : operandOf i = none) : encode i = [opcodeOf i] := by
  rw [encode, h, Option.toList_none]

theorem encode_of_operandOf_some {i : Instr} {a : Word} (h : operandOf i = some a) : encode i = [opcodeOf i, a] := by
  rw [encode, h, Option.toList_some]

theorem decode_encode_append (i : Instr) (rest : List Word) : decode (encode i ++ rest) = .ok (i, rest) := by
  rcases Machine.openOpcode_opcodeOf i with ⟨ho, hn⟩ | ⟨f, a, ho, ha, rfl⟩
  · rw [encode_of_operandOf_none hn]
    exact decode_cons_op ho rest
  · rw [encode_of_operandOf_some ha]
    exact decode_cons_opArg ho a rest

theorem decode_encode (i : Instr) : decode (encode i) = .ok (i, []) := by
  rw [← decode_encode_append, List.append_nil]

theorem eq_encode_append_of_decode_ok {ws rest : List Word} {i : Instr} (h : decode ws = .ok (i, rest)) :
    ws = encode i ++ rest := by
  rcases decode_ok h with ⟨w, rfl, ho⟩ | ⟨w, f, a, rfl, ho, rfl⟩
  · rcases Machine.openOpcode_some ho with ⟨j, hj, rfl, hn⟩ | ⟨g, hg, -⟩
    · cases hj
      rw [encode_of_operandOf_none hn]
      rfl
    · cases hg
  · rcases Machine.openOpcode_some ho with ⟨j, hj, -⟩ | ⟨g, hg, hf⟩
    · cases hj
    · cases hg
      obtain ⟨hw, ha⟩ := hf a
      rw [encode_of_operandOf_some ha, hw]
      rfl

/-- Settles O8: one way by what the opcode of an instruction opens to, the other by what opens at all. -/
theorem decodeIsInverseOfEncode : Obligations.DecodeIsInverseOfEncode := by
  intro ws i rest
  constructor
  · exact eq_encode_append_of_decode_ok
  · rintro rfl
    exact decode_encode_append i rest

/-- Settles O7: the hexadecimal words of each line are the encoding of its instruction. -/
theorem opcodeWordsDecode : Obligations.OpcodeWordsDecode :=
  ⟨decode_encode (.loadValue (-7)), decode_encode (.loadAddr 999), decode_encode (.loadInd 10),
    decode_encode (.loadIdxX 900), decode_encode (.loadIdxY 60), decode_encode .loadSpX, decode_encode (.store 999),
    decode_encode .rand, decode_encode (.put 2), decode_encode .addX, decode_encode .addY, decode_encode .subX,
    decode_encode .subY, decode_encode .copyToX, decode_encode .copyFromX, decode_encode .copyToY,
    decode_encode .copyFromY, decode_encode .copyToSP, decode_encode .copyFromSP, decode_encode (.jump 1000),
    decode_encode (.jumpIfEqual 40), decode_encode (.jumpIfNotEqual 40), decode_encode (.call 200), decode_encode .ret,
    decode_encode .incX, decode_encode .decX, decode_encode .push, decode_encode .pop, decode_encode .int,
    decode_encode .iRet, decode_encode .halt⟩

end Sys2Proof
end

section
/-! PROOF. What an instruction that answers has done, said once for all 31: the requests it sent, the memory the
MemoryStore makes of them, and what it did to every other field. Each statement about whole steps is derived from
that. -/

namespace Sys2Proof.Machine

/-! ### Memory after a list of requests -/

/-- The memory the MemoryStore holds after it has handled requests in order (20_memory.md R53, R54, R57). -/
def served (rs : List Request) (m : Memory) : Memory := rs.foldl (fun m r => (serve r m).2) m

@[simp] theorem served_nil (m : Memory) : served [] m = m := rfl

theorem served_cons (r : Request) (rs : List Request) (m : Memory) : served (r :: rs) m = served rs (serve r m).2 := rfl

theorem served_append (rs rs' : List Request) (m : Memory) : served (rs ++ rs') m = served rs' (served rs m) :=
  List.foldl_append

@[simp] theorem serve_read_memory (a : Word) (m : Memory) : (serve (.read a) m).2 = m := by
  simp only [serve]
  split <;> rfl

theorem serve_write_memory {a : Word} (hb : inBounds a = true) (v : Word) (m : Memory) :
    (serve (.write a v) m).2 = m.write a.toNat v := by
  simp [serve, hb]

@[simp] theorem served_read_cons (a : Word) (rs : List Request) (m : Memory) :
    served (.read a :: rs) m = served rs m := by
  rw [served_cons, serve_read_memory]

@[simp] theorem served_done (m : Memory) : served [.done] m = m := rfl

theorem served_write {a : Word} (hb : inBounds a = true) (v : Word) (m : Memory) :
    served [.write a v] m = m.write a.toNat v := serve_write_memory hb v m

/-- The two writes of a trap entry (60_exceptions.md R194). -/
theorem served_trapEntry (v w : Word) (m : Memory) :
    served [.write 1998 v, .write 1997 w] m = (m.write 1998 v).write 1997 w := by
  rw [served_cons, serve_write_memory rfl, served_write rfl]
  rfl

/-- A fetch leaves memory. -/
@[simp] theorem served_fetchRequests (i : Instr) (pc0 : Word) (m : Memory) : served (fetchRequests i pc0) m = m := by
  unfold fetchRequests
  split <;> simp

theorem wf_served (rs : List Request) {m : Memory} (hm : m.wf = true) : (served rs m).wf = true := by
  induction rs generalizing m with
  | nil => exact hm
  | cons r rs ih => exact ih (wf_serve r hm)

/-- A request that is no write to an address leaves the word there. -/
theorem read_serve_other {r : Request} {k : Nat} (h : ∀ a v, r = .write a v → a.toNat ≠ k) (m : Memory) :
    (serve r m).2.read k = m.read k := by
  cases r with
  | read a => rw [serve_read_memory]
  | done => rfl
  | write a v =>
    simp only [serve]
    split
    · exact read_write_other (h a v rfl).symm m v
    · rfl

/-- So do requests none of which writes to it. -/
theorem read_served_other {rs : List Request} {k : Nat} (h : ∀ a v, Request.write a v ∈ rs → a.toNat ≠ k)
    (m : Memory) : (served rs m).read k = m.read k := by
  induction rs generalizing m with
  | nil => rfl
  | cons r rs ih =>
    rw [served_cons, ih fun a v hav => h a v (List.mem_cons_of_mem r hav)]
    exact read_serve_other (fun a v hr => h a v (hr ▸ List.mem_cons_self)) m

/-! ### The effect of an instruction -/

/-- The requests an instruction sends when it answers (the Requests lines of 41_load_store.md to 46_system.md). -/
def dataRequests : Instr → State → List Request
  | .loadAddr a, _ => [.read a]
  | .loadInd a, s => [.read a, .read (s.mem.read a.toNat)]
  | .loadIdxX a, s => [.read (a + s.x)]
  | .loadIdxY a, s => [.read (a + s.y)]
  | .loadSpX, s => [.read (s.sp + s.x)]
  | .store a, s => [.write a s.ac]
  | .call _, s => [.write (s.sp - 1) (s.pc + 2)]
  | .push, s => [.write (s.sp - 1) s.ac]
  | .ret, s | .pop, s => [.read s.sp]
  | .int, s => if s.inInterrupt then [] else [.write 1998 s.sp, .write 1997 (s.pc + 1)]
  | .iRet, s => [.read s.sp, .read (s.sp + 1)]
  | .halt, _ => [.done]
  | .loadValue _, _ | .rand, _ | .put _, _ => []
  | .jump _, _ | .jumpIfEqual _, _ | .jumpIfNotEqual _, _ => []
  | .addX, _ | .addY, _ | .subX, _ | .subY, _ | .incX, _ | .decX, _ => []
  | .copyToX, _ | .copyFromX, _ | .copyToY, _ | .copyFromY, _ | .copyToSP, _ | .copyFromSP, _ => []

/-- What an instruction that answers does to every field but memory and the requests. -/
def registersAfter : Instr → State → State
  | .loadValue a, s => advance 2 { s with ac := a }
  | .loadAddr a, s => advance 2 { s with ac := s.mem.read a.toNat }
  | .loadInd a, s => advance 2 { s with ac := s.mem.read (s.mem.read a.toNat).toNat }
  | .loadIdxX a, s => advance 2 { s with ac := s.mem.read (a + s.x).toNat }
  | .loadIdxY a, s => advance 2 { s with ac := s.mem.read (a + s.y).toNat }
  | .loadSpX, s => advance 1 { s with ac := s.mem.read (s.sp + s.x).toNat }
  | .store _, s => advance 2 s
  | .rand, s => advance 1 { s with ac := draw s.drawCount, drawCount := s.drawCount + 1 }
  | .put p, s => advance 2 (if p = 1 then emit .integer s.ac s else if p = 2 then emit .character s.ac s else s)
  | .addX, s => advance 1 { s with ac := s.ac + s.x }
  | .addY, s => advance 1 { s with ac := s.ac + s.y }
  | .subX, s => advance 1 { s with ac := s.ac - s.x }
  | .subY, s => advance 1 { s with ac := s.ac - s.y }
  | .copyToX, s => advance 1 { s with x := s.ac }
  | .copyFromX, s => advance 1 { s with ac := s.x }
  | .copyToY, s => advance 1 { s with y := s.ac }
  | .copyFromY, s => advance 1 { s with ac := s.y }
  | .copyToSP, s => advance 1 { s with sp := s.ac }
  | .copyFromSP, s => advance 1 { s with ac := s.sp }
  | .jump a, s => { s with pc := a }
  | .jumpIfEqual a, s => jumpWhen (acIsZero s) a s
  | .jumpIfNotEqual a, s => jumpWhen (!acIsZero s) a s
  | .call a, s => { s with sp := s.sp - 1, pc := a }
  | .ret, s => { s with pc := s.mem.read s.sp.toNat, sp := s.sp + 1 }
  | .incX, s => advance 1 { s with x := s.x + 1 }
  | .decX, s => advance 1 { s with x := s.x - 1 }
  | .push, s => advance 1 { s with sp := s.sp - 1 }
  | .pop, s => advance 1 { s with ac := s.mem.read s.sp.toNat, sp := s.sp + 1 }
  | .int, s =>
    if s.inInterrupt then advance 1 s else { s with mode := .kernel, inInterrupt := true, sp := 1997, pc := 1500 }
  | .iRet, s =>
    { s with
      mode := .user, inInterrupt := false, pc := s.mem.read s.sp.toNat, sp := s.mem.read (s.sp + 1).toNat }
  | .halt, s => { s with status := .halted }

/-- The state an instruction leaves when it answers. -/
def effect (i : Instr) (s : State) : State :=
  { registersAfter i s with
    mem := served (dataRequests i s) s.mem, requests := s.requests ++ dataRequests i s }

/-- The timer taken after an instruction that left `u` (60_exceptions.md R191, R194). -/
def timerTaken (u : State) : State :=
  { u with
    interruptCounter := 0, mode := .kernel, inInterrupt := true, sp := 1997, pc := 1000,
    mem := (u.mem.write 1998 u.sp).write 1997 u.pc,
    requests := u.requests ++ [.write 1998 u.sp, .write 1997 u.pc] }

@[simp] theorem effect_mem (i : Instr) (s : State) : (effect i s).mem = served (dataRequests i s) s.mem := rfl

@[simp] theorem effect_requests (i : Instr) (s : State) : (effect i s).requests = s.requests ++ dataRequests i s := rfl

/-! No instruction touches these fields but through its requests. -/

@[simp] theorem registersAfter_mem (i : Instr) (s : State) : (registersAfter i s).mem = s.mem := by
  cases i <;> simp [registersAfter, apply_ite State.mem]

@[simp] theorem registersAfter_requests (i : Instr) (s : State) : (registersAfter i s).requests = s.requests := by
  cases i <;> simp [registersAfter, apply_ite State.requests]

@[simp] theorem effect_channel (i : Instr) (s : State) : (effect i s).channel = s.channel := by
  cases i <;> simp [effect, registersAfter, apply_ite State.channel]

@[simp] theorem effect_interruptCounter (i : Instr) (s : State) :
    (effect i s).interruptCounter = s.interruptCounter := by
  cases i <;> simp [effect, registersAfter, apply_ite State.interruptCounter]

@[simp] theorem effect_timeToInterrupt (i : Instr) (s : State) :
    (effect i s).timeToInterrupt = s.timeToInterrupt := by
  cases i <;> simp [effect, registersAfter, apply_ite State.timeToInterrupt]

/-- The opcodes that write `AC` (10_state.md R21). -/
theorem effect_ac_ne {i : Instr} {s : State} (h : (effect i s).ac ≠ s.ac) :
    (opcodeOf i).toInt ∈ [1, 2, 3, 4, 5, 6, 8, 10, 11, 12, 13, 15, 17, 19, 28] := by
  cases i <;> simp [effect, registersAfter, opcodeOf, apply_ite State.ac] at h ⊢

/-- The opcodes that write `X` (10_state.md R22). -/
theorem effect_x_ne {i : Instr} {s : State} (h : (effect i s).x ≠ s.x) : (opcodeOf i).toInt ∈ [14, 25, 26] := by
  cases i <;> simp [effect, registersAfter, opcodeOf, apply_ite State.x] at h ⊢

/-- The opcode that writes `Y` (10_state.md R23). -/
theorem effect_y_ne {i : Instr} {s : State} (h : (effect i s).y ≠ s.y) : (opcodeOf i).toInt = 16 := by
  cases i <;> simp [effect, registersAfter, opcodeOf, apply_ite State.y] at h ⊢

/-- The opcodes that write `SP` (10_state.md R24). -/
theorem effect_sp_ne {i : Instr} {s : State} (h : (effect i s).sp ≠ s.sp) :
    (opcodeOf i).toInt ∈ [18, 23, 24, 27, 28, 29, 30] := by
  cases i <;> simp [effect, registersAfter, opcodeOf, apply_ite State.sp] at h ⊢

theorem effect_status (i : Instr) (s : State) : (effect i s).status = if i = .halt then .halted else s.status := by
  cases i <;> simp [effect, registersAfter, apply_ite State.status]

/-- A `Put` to any other port only moves `PC` (42_rand_put.md R131). -/
theorem registersAfter_put_other {p : Word} {s : State} (h1 : p ≠ 1) (h2 : p ≠ 2) :
    registersAfter (.put p) s = advance 2 s := by
  rw [registersAfter, if_neg h1, if_neg h2]

/-- `Out` after an instruction: what it was, or one event more by a `Put` (42_rand_put.md R131). -/
theorem effect_out (i : Instr) (s : State) :
    (effect i s).out = s.out ∨
      i = .put 1 ∧ (effect i s).out = s.out ++ [{ port := .integer, value := s.ac }] ∨
      i = .put 2 ∧ (effect i s).out = s.out ++ [{ port := .character, value := s.ac }] := by
  cases i
  case put p =>
    by_cases h1 : p = 1
    · subst h1
      exact .inr (.inl ⟨rfl, rfl⟩)
    · by_cases h2 : p = 2
      · subst h2
        exact .inr (.inr ⟨rfl, rfl⟩)
      · have hr := congrArg State.out (registersAfter_put_other (s := s) h1 h2)
        exact .inl hr
  all_goals simp [effect, registersAfter, apply_ite State.out]

/-- `Mode` and `InInterrupt` after an instruction: as they were, or by an `IRet`, or by an `Int` that takes the trap. -/
theorem effect_mode (i : Instr) (s : State) :
    (effect i s).mode = s.mode ∧ (effect i s).inInterrupt = s.inInterrupt ∨
      i = .iRet ∧ (effect i s).mode = .user ∧ (effect i s).inInterrupt = false ∨
      i = .int ∧ s.inInterrupt = false ∧ (effect i s).mode = .kernel ∧ (effect i s).inInterrupt = true := by
  cases i
  case iRet => exact .inr (.inl ⟨rfl, rfl, rfl⟩)
  case int => cases hi : s.inInterrupt <;> simp [effect, registersAfter, hi]
  all_goals simp [effect, registersAfter, apply_ite State.mode, apply_ite State.inInterrupt]

/-- What it takes to be the effect of an instruction. -/
theorem eq_effect {i : Instr} {s t : State} (hm : t.mem = served (dataRequests i s) s.mem)
    (hr : t.requests = s.requests ++ dataRequests i s)
    (ht : { t with mem := s.mem, requests := s.requests } = registersAfter i s) : t = effect i s := by
  calc t = { ({ t with mem := s.mem, requests := s.requests } : State) with
            mem := t.mem, requests := t.requests } := rfl
    _ = { registersAfter i s with mem := t.mem, requests := t.requests } := by rw [ht]
    _ = effect i s := by rw [hm, hr, effect]

/-- The same where no request is sent. -/
theorem eq_effect_of_no_requests {i : Instr} {s t : State} (h : dataRequests i s = []) (ht : t = registersAfter i s) :
    t = effect i s := by
  have hm : t.mem = s.mem := by rw [ht, registersAfter_mem]
  have hr : t.requests = s.requests := by rw [ht, registersAfter_requests]
  refine eq_effect ?_ ?_ ?_
  · rw [h, served_nil, hm]
  · rw [h, List.append_nil, hr]
  · rw [← hm, ← hr, ← ht]

theorem execPut_effect {p : Word} {s t : State} (h : execPut p s = .next t) : t = effect (.put p) s := by
  rcases execPut_next h with ⟨rfl, rfl⟩ | ⟨rfl, rfl⟩ | ⟨h1, h2, rfl⟩
  · exact eq_effect_of_no_requests rfl rfl
  · exact eq_effect_of_no_requests rfl rfl
  · exact eq_effect_of_no_requests rfl (registersAfter_put_other h1 h2).symm

/-- An `Int` that takes the trap (46_system.md R165). -/
theorem effect_int_taken {s : State} (h : s.inInterrupt = false) : effect .int s = { s with
    mode := .kernel, inInterrupt := true, sp := 1997, pc := 1500,
    mem := (s.mem.write 1998 s.sp).write 1997 (s.pc + 1),
    requests := s.requests ++ [.write 1998 s.sp, .write 1997 (s.pc + 1)] } := by
  have hd : dataRequests .int s = [.write 1998 s.sp, .write 1997 (s.pc + 1)] := by simp [dataRequests, h]
  rw [effect, hd, served_trapEntry]
  simp [registersAfter, h]

theorem execInt_effect {s t : State} (h : execInt s = .next t) : t = effect .int s := by
  rcases execInt_next h with ⟨hi, rfl⟩ | ⟨hi, -, rfl⟩
  · exact eq_effect_of_no_requests (by simp [dataRequests, hi]) (by simp [registersAfter, hi])
  · exact (effect_int_taken hi).symm

/-- An instruction that answers leaves its effect, whatever the instruction. -/
theorem exec_next {i : Instr} {s t : State} (h : exec i s = .next t) : t = effect i s := by
  cases i
  case loadAddr a =>
    obtain ⟨-, -, -, rfl⟩ := execLoadAddr_next h
    exact eq_effect (by simp [dataRequests]) rfl rfl
  case loadInd a =>
    obtain ⟨-, -, -, -, rfl⟩ := execLoadInd_next h
    exact eq_effect (by simp [dataRequests]) rfl rfl
  case loadIdxX a =>
    obtain ⟨-, -, -, rfl⟩ := execLoadIdxX_next h
    exact eq_effect (by simp [dataRequests]) rfl rfl
  case loadIdxY a =>
    obtain ⟨-, -, -, rfl⟩ := execLoadIdxY_next h
    exact eq_effect (by simp [dataRequests]) rfl rfl
  case loadSpX =>
    obtain ⟨-, -, rfl⟩ := execLoadSpX_next h
    exact eq_effect (by simp [dataRequests]) rfl rfl
  case store a =>
    obtain ⟨-, -, hb, rfl⟩ := execStore_next h
    exact eq_effect (served_write hb _ _).symm rfl rfl
  case call a =>
    obtain ⟨-, hb, rfl⟩ := execCall_next h
    exact eq_effect (served_write hb _ _).symm rfl rfl
  case push =>
    obtain ⟨-, hb, rfl⟩ := execPush_next h
    exact eq_effect (served_write hb _ _).symm rfl rfl
  case ret =>
    obtain ⟨-, -, rfl⟩ := execRet_next h
    exact eq_effect (by simp [dataRequests]) rfl rfl
  case pop =>
    obtain ⟨-, -, rfl⟩ := execPop_next h
    exact eq_effect (by simp [dataRequests]) rfl rfl
  case iRet =>
    obtain ⟨-, -, -, rfl⟩ := execIRet_next h
    exact eq_effect (by simp [dataRequests]) rfl rfl
  case halt =>
    obtain ⟨-, rfl⟩ := execHalt_next h
    exact eq_effect (by simp [dataRequests]) rfl rfl
  case put p => exact execPut_effect h
  case int => exact execInt_effect h
  all_goals
    cases h
    exact eq_effect_of_no_requests rfl rfl

end Sys2Proof.Machine
end

section
/-! PROOF. Whole steps that answer (40_cycle.md): everything such a step can have done, said once from the effect of its
instruction, and the statements about every step that follow from it. -/

namespace Sys2Proof.Machine

/-- Instruction `i`, fetched at `PC` in `s`, was executed and left `u`; the timer check is still to come. -/
structure Ran (i : Instr) (s u : State) : Prop where
  opcode : s.mem.read s.pc.toNat = opcodeOf i
  operand : ∀ a, operandOf i = some a → s.mem.read (s.pc + 1).toNat = a
  answers : exec i { s with requests := fetchRequests i s.pc } = .next u

theorem Ran.eq_effect {i : Instr} {s u : State} (h : Ran i s u) :
    u = effect i { s with requests := fetchRequests i s.pc } := exec_next h.answers

/-- What follows an instruction touches the counter alone, or takes the timer. -/
theorem afterExec_shape {b : Bool} {u t : State} (h : afterExec b u = .next t) :
    (∃ c, t = { u with interruptCounter := c }) ∨ t = timerTaken u := by
  rcases afterExec_next h with ⟨-, hcheck⟩ | ⟨-, rfl⟩
  · rcases timerCheck_next hcheck with ⟨-, rfl⟩ | ⟨-, -, rfl⟩ | ⟨-, -, -, rfl⟩ | ⟨-, -, -, -, rfl⟩
    · exact .inl ⟨_, rfl⟩
    · exact .inl ⟨_, rfl⟩
    · exact .inl ⟨_, rfl⟩
    · exact .inr rfl
  · exact .inl ⟨_, rfl⟩

/-- A step that answers ran an instruction, and then changed no more than the counter or took the timer. -/
theorem step_ran {s t : State} (h : step s = .next t) :
    ∃ i u, Ran i s u ∧ ((∃ c, t = { u with interruptCounter := c }) ∨ t = timerTaken u) := by
  obtain ⟨-, -, -, i, u, hw, ha, hu, ht⟩ := step_next h
  exact ⟨i, u, ⟨hw, fun a hi => (ha a hi).2, hu⟩, afterExec_shape ht⟩

/-! ### The invariant -/

theorem Inv.with_requests {s : State} (h : Inv s) (rs : List Request) : Inv { s with requests := rs } := by
  obtain ⟨hmode, hc, hm, h0, hT⟩ := h
  exact ⟨hmode, hc, hm, h0, hT⟩

/-- An instruction keeps the invariant: mode and service change together, and memory only by requests. -/
theorem effect_inv {s : State} (h : Inv s) (i : Instr) : Inv (effect i s) where
  modeService := by
    rcases effect_mode i s with ⟨hm, hi⟩ | ⟨-, hm, hi⟩ | ⟨-, -, hm, hi⟩
    · rw [hm, hi, h.modeService]
    · simp [hm, hi]
    · simp [hm, hi]
  channelIdle := (effect_channel i s).trans h.channelIdle
  memWf := wf_served _ h.memWf
  counterNonneg := by
    rw [effect_interruptCounter]
    exact h.counterNonneg
  counterBelow := by
    rw [effect_interruptCounter, effect_timeToInterrupt]
    exact h.counterBelow

/-- Counting an instruction short of `T` keeps the counter in its range. -/
theorem counter_add_one {c T : Word} (h0 : 0 ≤ c.toInt) (hT : c.toInt < T.toInt) (hne : c + 1 ≠ T) :
    0 ≤ (c + 1).toInt ∧ (c + 1).toInt < T.toInt := by
  have hmax : T.toInt ≤ 2147483647 := by
    have := Word.toNat_lt T
    rw [Word.toInt_eq]
    split <;> omega
  have hsucc : (c + 1).toInt = c.toInt + 1 := Word.toInt_add_one (by omega)
  have hne' : (c + 1).toInt ≠ T.toInt := fun he => hne (BitVec.eq_of_toInt_eq he)
  omega

theorem timerCheck_inv {b : Bool} {s t : State} (hs : Inv s) (h : timerCheck b s = .next t) : Inv t := by
  obtain ⟨hmode, hc, hm, h0, hT⟩ := hs
  have hpos : (0 : Word).toInt < s.timeToInterrupt.toInt := lt_of_le_of_lt h0 hT
  rcases timerCheck_next h with ⟨-, rfl⟩ | ⟨-, hne, rfl⟩ | ⟨-, -, -, rfl⟩ | ⟨-, -, -, -, rfl⟩
  · exact ⟨hmode, hc, hm, h0, hT⟩
  · obtain ⟨h0', hT'⟩ := counter_add_one h0 hT hne
    exact ⟨hmode, hc, hm, h0', hT'⟩
  · exact ⟨hmode, hc, hm, le_refl _, hpos⟩
  · exact ⟨by simp, hc, wf_write (by decide) (wf_write (by decide) hm _) _, le_refl _, hpos⟩

/-- Settles O6: the effect of the instruction keeps the invariant, and so does the timer check. -/
theorem stepKeepsInvariant : Obligations.StepKeepsInvariant := by
  intro s t hs h
  obtain ⟨-, -, -, i, u, -, -, hu, ht⟩ := step_next h
  have hinv : Inv u := exec_next hu ▸ effect_inv (hs.with_requests _) i
  rcases afterExec_next ht with ⟨-, hcheck⟩ | ⟨-, rfl⟩
  · exact timerCheck_inv hinv hcheck
  · exact hinv

/-! ### Memory -/

/-- The memory after a step is what the MemoryStore makes of the requests the step sent. -/
theorem step_mem {s t : State} (h : step s = .next t) : t.mem = served t.requests s.mem := by
  obtain ⟨i, u, hr, hu⟩ := step_ran h
  have hmem : u.mem = served u.requests s.mem := by
    rw [hr.eq_effect, effect_requests, served_append, served_fetchRequests]
    rfl
  rcases hu with ⟨c, rfl⟩ | rfl
  · exact hmem
  · simp only [timerTaken]
    rw [served_append, ← hmem, served_trapEntry]

/-- Settles O37: of the requests that make the memory after the step, one that writes elsewhere leaves the word. -/
theorem memoryChangesOnlyByWriteRequests : Obligations.MemoryChangesOnlyByWriteRequests := by
  intro s t h k hk
  rw [step_mem h, read_served_other hk]

theorem eq_store_of_opcode {i : Instr} (h : opcodeOf i = 7) : ∃ a, i = .store a := by
  cases i <;> simp [opcodeOf] at h ⊢

/-- An address of memory below 1000 is a number below 1000. -/
theorem toNat_lt_of_toInt_lt {a : Word} (hb : inBounds a = true) (h : a.toInt < 1000) : a.toNat < 1000 := by
  have := (inBounds_iff a).1 hb
  rw [Word.toInt_eq] at h
  split at h <;> omega

/-- A User-mode `Store` that answered wrote below the system region (20_memory.md R62), and kept the mode. -/
theorem execStore_user {a : Word} {s u : State} (hs : s.mode = .user) (h : execStore a s = .next u) :
    u.mode = .user ∧ ∀ k, 1000 ≤ k → u.mem.read k = s.mem.read k := by
  obtain ⟨hp, -, hb, rfl⟩ := execStore_next h
  have ha := toNat_lt_of_toInt_lt hb (hp hs)
  exact ⟨hs, fun k hk => read_write_other (by omega) _ _⟩

/-- Settles O41: the store itself writes below 1000; what a timer entry writes are its two words. -/
theorem userStoreKeepsSystemRegion : Obligations.UserStoreKeepsSystemRegion := by
  intro s t h hs hw
  obtain ⟨i, u, hr, hu⟩ := step_ran h
  obtain ⟨a, rfl⟩ := eq_store_of_opcode (hr.opcode.symm.trans hw)
  obtain ⟨hmode, hmem⟩ := execStore_user (by exact hs) hr.answers
  rcases hu with ⟨c, rfl⟩ | rfl
  · exact ⟨fun _ => hmem, fun hk => absurd (hmode.symm.trans hk) (by decide)⟩
  · refine ⟨fun hk => (by cases hk), fun _ => ⟨rfl, fun k hk h1 h2 => ?_⟩⟩
    exact (read_write_other h1 _ _).trans ((read_write_other h2 _ _).trans (hmem k hk))

/-! ### Mode, status, threshold, registers, output -/

/-- An instruction that ran changed the mode only as an `IRet`, or as an `Int` that took the trap. -/
theorem Ran.mode {i : Instr} {s u : State} (h : Ran i s u) :
    u.mode = s.mode ∨ i = .iRet ∧ u.mode = .user ∨
      i = .int ∧ s.inInterrupt = false ∧ u.mode = .kernel ∧
        u = effect .int { s with requests := fetchRequests .int s.pc } := by
  obtain rfl := h.eq_effect
  rcases effect_mode i { s with requests := fetchRequests i s.pc } with ⟨hm, -⟩ | ⟨hi, hm, -⟩ | ⟨rfl, hin, hm, -⟩
  · exact .inl hm
  · exact .inr (.inl ⟨hi, hm⟩)
  · exact .inr (.inr ⟨rfl, hin, hm, rfl⟩)

/-- Settles O32: of the instructions only a taken `Int` and `IRet` change the mode, and after them only the timer's
entry. -/
theorem modeChangesOnlyByTrapAndIRet : Obligations.ModeChangesOnlyByTrapAndIRet := by
  refine ⟨rfl, fun s t h hs ht => ?_, fun s t h hs ht => ?_⟩
  · obtain ⟨i, u, hr, ⟨c, rfl⟩ | rfl⟩ := step_ran h
    · rcases hr.mode with hm | ⟨-, hm⟩ | ⟨rfl, hi, -, hu⟩
      · exact absurd (hs.symm.trans (hm.symm.trans ht)) (by decide)
      · exact absurd (hm.symm.trans ht) (by decide)
      · obtain rfl := hu.trans (effect_int_taken hi)
        exact ⟨rfl, rfl, .inl ⟨rfl, hr.opcode, hi⟩, _, _, _, rfl⟩
    · exact ⟨rfl, rfl, .inr rfl, _, _, _, rfl⟩
  · obtain ⟨i, u, hr, ⟨c, rfl⟩ | rfl⟩ := step_ran h
    · rcases hr.mode with hm | ⟨rfl, -⟩ | ⟨-, -, hm, -⟩
      · exact absurd (hs.symm.trans (hm.symm.trans ht)) (by decide)
      · exact hr.opcode
      · exact absurd (hm.symm.trans ht) (by decide)
    · cases ht

/-- Settles O40: no instruction and no timer check touches `T`. -/
theorem thresholdIsConstant : Obligations.ThresholdIsConstant := by
  intro s t h
  obtain ⟨i, u, hr, hu⟩ := step_ran h
  have hT : u.timeToInterrupt = s.timeToInterrupt := by rw [hr.eq_effect, effect_timeToInterrupt]
  rcases hu with ⟨c, rfl⟩ | rfl <;> exact hT

theorem opcodeOf_eq_halt_iff (i : Instr) : opcodeOf i = 50 ↔ i = .halt := by
  cases i <;> simp [opcodeOf]

/-- Settles O45: `Halt` alone changes Status, and 50 is its opcode alone. -/
theorem onlyHaltEndsTheRun : Obligations.OnlyHaltEndsTheRun := by
  intro s t h
  obtain ⟨hrun, -⟩ := step_next h
  obtain ⟨i, u, hr, hu⟩ := step_ran h
  have hstatus : t.status = if i = .halt then .halted else .running := by
    have hu' : u.status = if i = .halt then .halted else .running := by rw [hr.eq_effect, effect_status, hrun]
    rcases hu with ⟨c, rfl⟩ | rfl <;> exact hu'
  rw [hr.opcode, Ne, opcodeOf_eq_halt_iff, hstatus]
  exact ⟨fun hi => if_pos hi, fun hi => if_neg hi⟩

/-- Settles O38: `Put` is the only instruction that appends to `Out`, and the port is the operand it fetched. -/
theorem outputOnlyGrowsByPut : Obligations.OutputOnlyGrowsByPut := by
  refine ⟨rfl, fun s t h => ?_⟩
  obtain ⟨i, u, hr, hu⟩ := step_ran h
  have hout : t.out = u.out := by
    rcases hu with ⟨c, rfl⟩ | rfl <;> rfl
  obtain ⟨hw, ha, hx⟩ := hr
  rw [hout, exec_next hx]
  rcases effect_out i { s with requests := fetchRequests i s.pc } with ho | ⟨rfl, ho⟩ | ⟨rfl, ho⟩
  · exact .inl ho
  · exact .inr ⟨hw, .inl ⟨ha 1 rfl, ho⟩⟩
  · exact .inr ⟨hw, .inr ⟨ha 2 rfl, ho⟩⟩

/-- Settles O39: the instructions that write each register, and the timer entry, which writes none but `SP` and `PC`. -/
theorem registerWriters : Obligations.RegisterWriters := by
  intro s t h
  obtain ⟨i, u, hr, hu⟩ := step_ran h
  rw [hr.opcode]
  obtain rfl := hr.eq_effect
  rcases hu with ⟨c, rfl⟩ | rfl
  · exact ⟨effect_ac_ne, effect_x_ne, effect_y_ne, fun hne => .inl (effect_sp_ne hne)⟩
  · exact ⟨effect_ac_ne, effect_x_ne, effect_y_ne, fun _ => .inr ⟨rfl, rfl, rfl⟩⟩

end Sys2Proof.Machine
end

section
/-! PROOF. Whole steps, continued: the step that runs a given instruction, what a step that raises a fatal fault leaves,
and that there is no third way for a step to end. -/

namespace Sys2Proof.Machine

/-! ### The step that runs the instruction standing at `PC` -/

/-- The fetch of the instruction whose words stand at `PC`. -/
theorem fetchInstr_of_instrAt {s : State} {i : Instr} (hc : s.channel = .idle) (h : InstrAt i s) :
    fetchInstr s = .next (i, { s with requests := s.requests ++ fetchRequests i s.pc }) := by
  obtain ⟨hb, hw, hrest⟩ := h
  rcases openOpcode_opcodeOf i with ⟨ho, hn⟩ | ⟨f, a, ho, ha, rfl⟩
  · rw [fetchInstr_op hc hb hw ho, fetchRequests, formatOf, hn]
  · rw [ha] at hrest
    obtain ⟨hb2, rfl, -⟩ := hrest
    rw [fetchInstr_opArg hc hb hw ho hb2, fetchRequests, formatOf, ha]

/-- The step at an instruction whose words stand at `PC` (40_cycle.md R100). -/
theorem step_of_instrAt {s : State} {i : Instr} (hr : Ready s) (h : InstrAt i s) :
    step s = andThen (exec i { s with requests := fetchRequests i s.pc }) fun t => afterExec s.inInterrupt t :=
  step_of_fetch hr (fetchInstr_of_instrAt (s := { s with requests := [] }) hr.channelIdle h)

/-- Settles O10: the fetch of what stands at `PC` gives `i`, and the rest of the step is the definition's. -/
theorem stepRunsDecoded : Obligations.StepRunsDecoded := by
  intro s i hr h
  rw [step_of_instrAt hr h]
  cases exec i { s with requests := fetchRequests i s.pc } <;> rfl

/-- Settles O12: `step` asks for the status first. -/
theorem stoppedMachineHasNoStep : Obligations.StoppedMachineHasNoStep := by
  intro s h
  cases hs : s.status with
  | running => exact absurd hs h
  | halted => rw [step, hs]
  | faulted k => rw [step, hs]

/-! ### The timer check (60_exceptions.md R190 to R193) -/

theorem afterExec_of_running {b : Bool} {s : State} (h : s.status = .running) : afterExec b s = timerCheck b s := by
  rw [afterExec, h]

theorem timerCheck_not_counted (s : State) : timerCheck true s = .next s := rfl

theorem timerCheck_counted {s : State} (h : s.interruptCounter + 1 ≠ s.timeToInterrupt) :
    timerCheck false s = .next { s with interruptCounter := s.interruptCounter + 1 } := if_neg h

theorem timerCheck_due {s : State} (h : s.interruptCounter + 1 = s.timeToInterrupt) :
    timerCheck false s = timerDue { s with interruptCounter := s.interruptCounter + 1 } := if_pos h

theorem timerCheck_dropped {s : State} (h : s.interruptCounter + 1 = s.timeToInterrupt) (hi : s.inInterrupt = true) :
    timerCheck false s = .next { s with interruptCounter := 0 } := by
  rw [timerCheck_due h, timerDue, if_neg (by simp [hi])]
  rfl

theorem timerCheck_taken {s : State} (hc : s.channel = .idle) (h : s.interruptCounter + 1 = s.timeToInterrupt)
    (hi : s.inInterrupt = false) : timerCheck false s = .next (timerTaken s) := by
  rw [timerCheck_due h, timerDue, if_pos hi, trapEnter_eq (by exact hc)]
  rfl

/-- What the two writes of a trap entry leave to be read (60_exceptions.md R194). -/
theorem read_trapEntry {m : Memory} (hm : m.wf = true) (v w : Word) :
    ((m.write 1998 v).write 1997 w).read 1998 = v ∧ ((m.write 1998 v).write 1997 w).read 1997 = w ∧
      ∀ k, k ≠ 1998 → k ≠ 1997 → ((m.write 1998 v).write 1997 w).read k = m.read k := by
  refine ⟨?_, read_write_same (wf_write (by decide) hm v) _ _, fun k h8 h7 => ?_⟩
  · rw [read_write_other (by decide), read_write_same hm]
  · rw [read_write_other h7, read_write_other h8]

/-- Settles O31: the four ways through the timer check, with the counter and `T` the instruction left alone. -/
theorem timerCheckEffect : Obligations.TimerCheckEffect := by
  intro s t i hr hm hi hx hrun
  have hstep : step s = timerCheck s.inInterrupt t := by
    rw [step_of_instrAt hr hi, hx, andThen_next, afterExec_of_running hrun]
  have ht := exec_next hx
  have hcount : t.interruptCounter = s.interruptCounter := by rw [ht, effect_interruptCounter]
  have hT : t.timeToInterrupt = s.timeToInterrupt := by rw [ht, effect_timeToInterrupt]
  have hc : t.channel = .idle := by rw [ht, effect_channel, hr.channelIdle]
  have hwf : t.mem.wf = true := by
    rw [ht, effect_mem]
    exact wf_served _ hm
  rw [hstep, ← hcount, ← hT]
  refine ⟨fun hs => ?_, fun hs hne => ?_, fun hs hdue hin => ?_, fun hs hdue hin => ?_⟩
  · rw [hs, timerCheck_not_counted]
  · rw [hs, timerCheck_counted hne]
  · rw [hs, timerCheck_dropped hdue hin]
  · obtain ⟨h8, h7, hother⟩ := read_trapEntry hwf t.sp t.pc
    rw [hs, timerCheck_taken hc hdue hin]
    exact ⟨_, rfl, h8, h7, hother, rfl⟩

/-! ### Fatal faults -/

/-- An operand that violates stops its instruction at the check (20_memory.md R62, R63). -/
theorem exec_of_violates {i : Instr} {a : Word} {s : State} (hi : checkedOperand i = some a) (hv : Violates a s) :
    exec i s = .fault (.memoryViolation a s.observed) := by
  cases i <;> cases hi <;> exact checked_of_violates hv _

/-- An operand that is checked is the operand of one of the opcodes 2, 3, 4, 5 and 7 (20_memory.md R63). -/
theorem opcodeOf_of_checkedOperand {i : Instr} {a : Word} (h : checkedOperand i = some a) :
    operandOf i = some a ∧
      (opcodeOf i = 2 ∨ opcodeOf i = 3 ∨ opcodeOf i = 4 ∨ opcodeOf i = 5 ∨ opcodeOf i = 7) := by
  cases i <;> cases h <;> simp [operandOf, opcodeOf]

theorem fetchRequests_of_operandOf {i : Instr} {a : Word} (h : operandOf i = some a) (pc0 : Word) :
    fetchRequests i pc0 = [.read pc0, .read (pc0 + 1)] := by
  rw [fetchRequests, formatOf, h]

/-- The operand of an instruction that stands at `PC` is the word at `PC + 1`. -/
theorem read_operand_of_instrAt {i : Instr} {a : Word} {s : State} (h : InstrAt i s) (ha : operandOf i = some a) :
    s.mem.read (s.pc + 1).toNat = a := by
  obtain ⟨-, -, hrest⟩ := h
  rw [ha] at hrest
  obtain ⟨-, hr, -⟩ := hrest
  exact hr

/-- Settles O33: the check is the first thing the five instructions do, and nothing else raises the fault. -/
theorem memoryViolationExactlyFromUserOperands : Obligations.MemoryViolationExactlyFromUserOperands := by
  refine ⟨fun s a i hr hv hi hop => ?_, fun s a seen h => ?_⟩
  · have hchecked : checkedOperand i = some a := by
      rcases hop with rfl | rfl | rfl | rfl | rfl <;> rfl
    obtain ⟨ha, -⟩ := opcodeOf_of_checkedOperand hchecked
    rw [step_of_instrAt hr hi, exec_of_violates hchecked (by exact hv), fetchRequests_of_operandOf ha]
    rfl
  · rcases step_fatalFault h rfl with ⟨b, more, -, hf, -⟩ | ⟨-, hf⟩ | ⟨i, b, hi, hchecked, ⟨hu, h1000⟩, hf⟩
    · cases hf
    · cases hf
    · cases hf
      obtain ⟨ha, hop⟩ := opcodeOf_of_checkedOperand hchecked
      obtain ⟨-, hw, -⟩ := id hi
      rw [fetchRequests_of_operandOf ha, hw]
      exact ⟨hu, h1000, (read_operand_of_instrAt hi ha).symm, hop, rfl⟩

/-- Settles O35: each of the three fatal faults carries the memory and `Out` of the state it was raised from. -/
theorem faultLeavesMemoryAndOut : Obligations.FaultLeavesMemoryAndOut := by
  intro s f seen h hseen
  rcases step_fatalFault h hseen with ⟨a, more, -, rfl, -⟩ | ⟨-, rfl⟩ | ⟨i, a, -, -, -, rfl⟩ <;> cases hseen <;>
    exact ⟨rfl, rfl⟩

/-! ### The first request -/

theorem fetchRequests_head? (i : Instr) (pc0 : Word) (rs : List Request) :
    (fetchRequests i pc0 ++ rs).head? = some (.read pc0) := by
  unfold fetchRequests
  split <;> rfl

/-- The requests seen at a fault of the fetch begin with the opcode read. -/
theorem fetchInstr_fault_head? {s : State} {f : Fault} {seen : Observed} (hs : s.requests = [])
    (h : fetchInstr s = .fault f) (hseen : faultSeen f = some seen) : seen.requests.head? = some (.read s.pc) := by
  rcases fetchInstr_fault h with ⟨-, rfl⟩ | ⟨-, rfl⟩ | ⟨-, -, rfl⟩ | ⟨-, -, rfl⟩ <;> cases hseen <;>
    simp only [hs, List.nil_append, List.head?_cons]

/-- The requests seen at a fault of an instruction begin with those sent before it. -/
theorem exec_fault_requests {i : Instr} {s : State} {f : Fault} {seen : Observed} (hc : s.channel = .idle)
    (h : exec i s = .fault f) (hseen : faultSeen f = some seen) : ∃ more, seen.requests = s.requests ++ more := by
  rcases exec_fault hc h with ⟨a, -, -, -, rfl⟩ | ⟨a, more, -, rfl, -⟩ <;> cases hseen
  · exact ⟨[], (List.append_nil _).symm⟩
  · exact ⟨more, rfl⟩

/-- Settles O44: the fetch comes first, and what follows it only appends to the requests. -/
theorem everyStepStartsWithItsFetch : Obligations.EveryStepStartsWithItsFetch := by
  refine ⟨fun s t h => ?_, fun s f seen h hseen => ?_⟩
  · obtain ⟨i, u, hr, hu⟩ := step_ran h
    have hreq : u.requests = fetchRequests i s.pc ++ _ := hr.eq_effect ▸ effect_requests i _
    rcases hu with ⟨c, rfl⟩ | rfl
    · exact hreq ▸ fetchRequests_head? i s.pc _
    · simp only [timerTaken, hreq, List.append_assoc]
      exact fetchRequests_head? i s.pc _
  · rcases step_fault h with ⟨rfl, -⟩ | ⟨-, hf⟩ | ⟨-, hc, -, i, -, -, hx | ⟨u, -, hu⟩⟩
    · cases hseen
    · exact fetchInstr_fault_head? (s := { s with requests := [] }) rfl hf hseen
    · obtain ⟨more, hmore⟩ := exec_fault_requests (by exact hc) hx hseen
      rw [hmore]
      exact fetchRequests_head? i s.pc more
    · rw [afterExec_faultSeen hu] at hseen
      cases hseen

/-! ### No refusal, and no other fault -/

theorem andThen_ne_refused {α β : Type} {o : Host.Outcome α Fault Refusal} {f : α → Host.Outcome β Fault Refusal}
    (ho : ∀ r, o ≠ .refused r) (hf : ∀ a r, f a ≠ .refused r) (r : Refusal) : andThen o f ≠ .refused r := by
  intro h
  rcases andThen_eq_refused.1 h with h | ⟨a, -, h⟩
  · exact ho r h
  · exact hf a r h

theorem loadAc_ne_refused (a n : Word) (s : State) : ∀ r, loadAc a n s ≠ .refused r :=
  andThen_ne_refused (memRead_ne_refused a s) fun _ _ => nofun

theorem pushWord_ne_refused (v : Word) (s : State) : ∀ r, pushWord v s ≠ .refused r := memWrite_ne_refused _ _ _

theorem popWord_ne_refused (s : State) : ∀ r, popWord s ≠ .refused r :=
  andThen_ne_refused (memRead_ne_refused _ s) fun _ _ => nofun

theorem trapEnter_ne_refused (vec : Word) (s : State) : ∀ r, trapEnter vec s ≠ .refused r :=
  andThen_ne_refused (pushWord_ne_refused _ _) fun _ => andThen_ne_refused (pushWord_ne_refused _ _) fun _ _ => nofun

theorem trapReturn_ne_refused (s : State) : ∀ r, trapReturn s ≠ .refused r :=
  andThen_ne_refused (popWord_ne_refused _) fun _ => andThen_ne_refused (popWord_ne_refused _) fun _ _ => nofun

theorem send_ne_refused (q : Request) (s : State) (r : Refusal) : send q s ≠ .refused r := by
  unfold send
  split <;> nofun

/-- No instruction is refused: each has its meaning. -/
theorem exec_ne_refused (i : Instr) (s : State) : ∀ r, exec i s ≠ .refused r := by
  cases i
  case loadAddr a => exact andThen_ne_refused (checkProt_ne_refused a s) fun _ => loadAc_ne_refused _ _ _
  case loadInd a =>
    exact andThen_ne_refused (checkProt_ne_refused a s) fun _ =>
      andThen_ne_refused (memRead_ne_refused _ _) fun _ => loadAc_ne_refused _ _ _
  case loadIdxX a => exact andThen_ne_refused (checkProt_ne_refused a s) fun _ => loadAc_ne_refused _ _ _
  case loadIdxY a => exact andThen_ne_refused (checkProt_ne_refused a s) fun _ => loadAc_ne_refused _ _ _
  case loadSpX => exact loadAc_ne_refused _ _ _
  case store a =>
    exact andThen_ne_refused (checkProt_ne_refused a s) fun _ =>
      andThen_ne_refused (memWrite_ne_refused _ _ _) fun _ _ => nofun
  case call a => exact andThen_ne_refused (pushWord_ne_refused _ _) fun _ _ => nofun
  case push => exact andThen_ne_refused (pushWord_ne_refused _ _) fun _ _ => nofun
  case ret => exact andThen_ne_refused (popWord_ne_refused _) fun _ _ => nofun
  case pop => exact andThen_ne_refused (popWord_ne_refused _) fun _ _ => nofun
  case iRet => exact trapReturn_ne_refused s
  case halt => exact andThen_ne_refused (send_ne_refused _ _) fun _ _ => nofun
  case int =>
    simp only [exec, execInt]
    split
    · nofun
    · exact trapEnter_ne_refused _ _
  case put p =>
    simp only [exec, execPut]
    split
    · nofun
    · split <;> nofun
  all_goals nofun

theorem fetchInstr_ne_refused (s : State) : ∀ r, fetchInstr s ≠ .refused r := by
  refine andThen_ne_refused (memRead_ne_refused _ _) fun q => ?_
  split
  · nofun
  · nofun
  · exact andThen_ne_refused (memRead_ne_refused _ _) fun _ _ => nofun

theorem afterExec_ne_refused (b : Bool) (s : State) : ∀ r, afterExec b s ≠ .refused r := by
  unfold afterExec timerCheck timerDue
  split
  · split_ifs
    · exact trapEnter_ne_refused _ _
    all_goals nofun
  · nofun
  · nofun

theorem step_ne_refused (s : State) : ∀ r, step s ≠ .refused r := by
  unfold step
  split
  · exact andThen_ne_refused (fetchInstr_ne_refused _) fun _ =>
      andThen_ne_refused (exec_ne_refused _ _) fun _ => afterExec_ne_refused _ _
  · nofun
  · nofun

/-- A fetch with the slot Idle raises no stuck fault. -/
theorem fetchInstr_fault_kind {s : State} {f : Fault} (hc : s.channel = .idle) (h : fetchInstr s = .fault f) :
    ∃ k, faultStatus f = some (.faulted k) := by
  rcases fetchInstr_fault h with ⟨hn, -⟩ | ⟨-, rfl⟩ | ⟨-, -, rfl⟩ | ⟨-, -, rfl⟩
  · exact absurd hc hn
  · exact ⟨_, rfl⟩
  · exact ⟨_, rfl⟩
  · exact ⟨_, rfl⟩

/-- Nor does an instruction with the slot Idle. -/
theorem exec_fault_kind {i : Instr} {s : State} {f : Fault} (hc : s.channel = .idle) (h : exec i s = .fault f) :
    ∃ k, faultStatus f = some (.faulted k) := by
  rcases exec_fault hc h with ⟨a, -, -, -, rfl⟩ | ⟨a, more, -, rfl, -⟩
  · exact ⟨_, rfl⟩
  · exact ⟨_, rfl⟩

/-- A machine that can take a step faults only by one of the three fatal faults: every instruction leaves the slot
Idle. -/
theorem step_fault_kind {s : State} {f : Fault} (hr : Ready s) (h : step s = .fault f) :
    ∃ k, faultStatus f = some (.faulted k) := by
  rcases step_fault h with ⟨-, hn⟩ | ⟨-, hf⟩ | ⟨-, hc, -, i, -, -, hx | ⟨u, hx, hu⟩⟩
  · exact absurd hr.running hn
  · exact fetchInstr_fault_kind (by exact hr.channelIdle) hf
  · exact exec_fault_kind (by exact hc) hx
  · have hidle : u.channel = .idle := by rw [exec_next hx, effect_channel, hc]
    exact absurd hidle (afterExec_fault hu)

/-- Settles O36: no refusal anywhere in a step, and no stuck fault from a machine that can take one. -/
theorem stepAnswersOrRaises : Obligations.StepAnswersOrRaises := by
  refine fun s => ⟨step_ne_refused s, fun hr => ?_⟩
  cases h : step s with
  | next t => exact .inl ⟨t, rfl⟩
  | fault f =>
    obtain ⟨k, hk⟩ := step_fault_kind hr h
    exact .inr ⟨f, k, rfl, hk⟩
  | refused r => exact absurd h (step_ne_refused s r)

end Sys2Proof.Machine
end

section
/-! PROOF. The results of the remaining instructions: the indexed loads, `Rand` and `Put`, arithmetic and copies, jumps,
the stack, `Int`, `IRet` and `Halt` (41_load_store.md R123 to 46_system.md R167). -/

namespace Sys2Proof.Machine

/-! ### Loads, output, arithmetic, copies, jumps -/

theorem execLoadIdxX_of_not_violates {a : Word} {s : State} (h : ¬Violates a s) :
    execLoadIdxX a s = loadAc (a + s.x) 2 s := checked_of_not_violates h _

theorem execLoadIdxY_of_not_violates {a : Word} {s : State} (h : ¬Violates a s) :
    execLoadIdxY a s = loadAc (a + s.y) 2 s := checked_of_not_violates h _

/-- Settles O16: past the check of the operand each is the one read of `loadAc`, at the wrapped sum. -/
theorem indexedLoadResults : Obligations.IndexedLoadResults := by
  refine ⟨fun addr => ⟨twoWords_of_operandOf rfl, twoWords_of_operandOf rfl⟩, fun addr s hc =>
    ⟨⟨fun hv => ?_, fun hv hm => ?_, fun hv hm => ?_⟩, ⟨fun hv => ?_, fun hv hm => ?_, fun hv hm => ?_⟩,
      fun hm => ?_, fun hm => ?_⟩⟩
  · exact checked_of_violates hv _
  · exact (execLoadIdxX_of_not_violates hv).trans (loadAc_outside hc hm 2)
  · exact (execLoadIdxX_of_not_violates hv).trans (loadAc_inMemory hc hm 2)
  · exact checked_of_violates hv _
  · exact (execLoadIdxY_of_not_violates hv).trans (loadAc_outside hc hm 2)
  · exact (execLoadIdxY_of_not_violates hv).trans (loadAc_inMemory hc hm 2)
  · exact loadAc_outside hc hm 1
  · exact loadAc_inMemory hc hm 1

/-- Settles O18: the value is the draw, which lies in its range whatever the random source answers. -/
theorem randResult : Obligations.RandResult := by
  intro s
  obtain ⟨hlo, hhi⟩ := draw_range s.drawCount
  exact ⟨_, rfl, hlo, hhi, rfl⟩

theorem execPut_other {p : Word} {s : State} (h1 : p ≠ 1) (h2 : p ≠ 2) : execPut p s = .next (advance 2 s) := by
  rw [execPut, if_neg h1, if_neg h2]

/-- Settles O19: the three ways of `Put`, by its port. -/
theorem putResult : Obligations.PutResult := by
  refine fun port => ⟨fun s => ?_, twoWords_of_operandOf rfl⟩
  by_cases h1 : port = 1
  · subst h1
    exact ⟨_, rfl, fun _ => rfl, fun h => absurd h (by decide), fun h => absurd rfl h, rfl⟩
  · by_cases h2 : port = 2
    · subst h2
      exact ⟨_, rfl, fun h => absurd h (by decide), fun _ => rfl, fun _ h => absurd rfl h, rfl⟩
    · exact ⟨_, execPut_other h1 h2, fun h => absurd h h1, fun h => absurd h h2, fun _ _ => rfl, rfl⟩

/-- Settles O20: a wrapped sum or difference is the true one reduced into the signed range (decision D2). -/
theorem arithmeticResults : Obligations.ArithmeticResults := fun s =>
  ⟨⟨_, rfl, BitVec.toInt_add s.ac s.x⟩, ⟨_, rfl, BitVec.toInt_add s.ac s.y⟩, ⟨_, rfl, BitVec.toInt_sub⟩,
    ⟨_, rfl, BitVec.toInt_sub⟩, ⟨_, rfl, BitVec.toInt_add s.x 1⟩, ⟨_, rfl, BitVec.toInt_sub (y := 1)⟩⟩

/-- Settles O21: a copy is one register write and the move of `PC`. -/
theorem copyResults : Obligations.CopyResults :=
  ⟨rfl, rfl, rfl, rfl, rfl, rfl, fun _ => ⟨rfl, rfl, rfl, rfl, rfl, rfl⟩⟩

/-- The condition of the jumps in signed value (44_control.md R152). -/
theorem acIsZero_eq (s : State) : acIsZero s = decide (s.ac.toInt = 0) :=
  decide_eq_decide.2 (BitVec.toInt_inj (y := 0)).symm

/-- Settles O22: a jump is `jumpWhen` on its condition, which looks at `AC` alone. -/
theorem jumpResults : Obligations.JumpResults := by
  refine fun addr => ⟨fun s => ⟨rfl, fun h => ?_, fun h => ?_⟩, twoWords_of_operandOf rfl,
    twoWords_of_operandOf rfl, twoWords_of_operandOf rfl⟩
  · have hz : acIsZero s = true := by rw [acIsZero_eq, decide_eq_true h]
    simp only [exec, execJumpIfEqual, execJumpIfNotEqual, hz]
    exact ⟨rfl, rfl⟩
  · have hz : acIsZero s = false := by rw [acIsZero_eq, decide_eq_false h]
    simp only [exec, execJumpIfEqual, execJumpIfNotEqual, hz]
    exact ⟨rfl, rfl⟩

/-! ### The stack -/

theorem pushWord_inMemory {s : State} (hc : s.channel = .idle) (h : InMemory (s.sp - 1)) (v : Word) :
    pushWord v s = .next { s with
      sp := s.sp - 1, mem := s.mem.write (s.sp - 1).toNat v, requests := s.requests ++ [.write (s.sp - 1) v] } := by
  rw [pushWord_eq hc, if_pos ((inMemory_iff _).1 h)]

theorem pushWord_outside {s : State} (hc : s.channel = .idle) (h : ¬InMemory (s.sp - 1)) (v : Word) :
    pushWord v s = .fault (.outOfBounds (s.sp - 1)
      { mem := s.mem, out := s.out, requests := s.requests ++ [.write (s.sp - 1) v] }) := by
  rw [pushWord_eq hc, if_neg (mt (inMemory_iff _).2 h)]

theorem popWord_inMemory {s : State} (hc : s.channel = .idle) (h : InMemory s.sp) :
    popWord s = .next (s.mem.read s.sp.toNat, { s with sp := s.sp + 1, requests := s.requests ++ [.read s.sp] }) := by
  rw [popWord_eq hc, if_pos ((inMemory_iff _).1 h)]

theorem popWord_outside {s : State} (hc : s.channel = .idle) (h : ¬InMemory s.sp) :
    popWord s =
      .fault (.outOfBounds s.sp { mem := s.mem, out := s.out, requests := s.requests ++ [.read s.sp] }) := by
  rw [popWord_eq hc, if_neg (mt (inMemory_iff _).2 h)]

theorem execRet_inMemory {s : State} (hc : s.channel = .idle) (h : InMemory s.sp) :
    execRet s =
      .next { s with pc := s.mem.read s.sp.toNat, sp := s.sp + 1, requests := s.requests ++ [.read s.sp] } := by
  rw [execRet, popWord_inMemory hc h]
  rfl

theorem execPop_inMemory {s : State} (hc : s.channel = .idle) (h : InMemory s.sp) :
    execPop s = .next { s with
      ac := s.mem.read s.sp.toNat, sp := s.sp + 1, pc := s.pc + 1, requests := s.requests ++ [.read s.sp] } := by
  rw [execPop, popWord_inMemory hc h]
  rfl

/-- Settles O23: a `Call` is one push and a `Ret` one pop; the read-after-write laws of memory give the frame. -/
theorem callAndRetResults : Obligations.CallAndRetResults := by
  refine ⟨fun addr => twoWords_of_operandOf rfl, fun s hc hm =>
    ⟨fun addr => ⟨fun h => ?_, fun h => ?_⟩, fun h => ?_, fun h => execRet_inMemory hc h⟩⟩
  · rw [exec, execCall, pushWord_outside hc h, andThen_fault]
  · rw [exec, execCall, pushWord_inMemory hc h]
    exact ⟨_, rfl, read_write_same hm _ _, fun k hk => read_write_other hk _ _, rfl⟩
  · rw [exec, execRet, popWord_outside hc h, andThen_fault]

/-- Settles O24: `Push` is one push of `AC` and `Pop` one pop into it. -/
theorem pushAndPopResults : Obligations.PushAndPopResults := by
  refine fun s hc hm => ⟨fun h => ?_, fun h => ?_, fun h => ?_, fun h => execPop_inMemory hc h⟩
  · rw [exec, execPush, pushWord_outside hc h, andThen_fault]
  · rw [exec, execPush, pushWord_inMemory hc h]
    exact ⟨_, rfl, read_write_same hm _ _, fun k hk => read_write_other hk _ _, rfl⟩
  · rw [exec, execPop, popWord_outside hc h, andThen_fault]

/-- Settles O25: `Ret` reads where `Call` wrote, and adds the 1 that `Call` took from `SP`. -/
theorem callThenRetBalances : Obligations.CallThenRetBalances := by
  intro addr s t u hm ht hc hsp hread
  obtain ⟨-, hb, rfl⟩ := execCall_next ht
  have hu : InMemory u.sp := hsp ▸ (inMemory_iff _).2 hb
  refine ⟨_, execRet_inMemory hc hu, ?_, ?_, rfl⟩
  · rw [hsp, hread]
    exact read_write_same hm _ _
  · rw [hsp]
    exact BitVec.sub_add_cancel s.sp 1

/-- Settles O26: `Pop` reads where `Push` wrote, and adds the 1 that `Push` took from `SP`. -/
theorem pushThenPopRoundTrip : Obligations.PushThenPopRoundTrip := by
  intro s t hm ht
  obtain ⟨hc, hb, rfl⟩ := execPush_next ht
  have hread : (s.mem.write (s.sp - 1).toNat s.ac).read (s.sp - 1).toNat = s.ac := read_write_same hm _ _
  exact ⟨_, execPop_inMemory (by exact hc) ((inMemory_iff _).2 hb), hread, BitVec.sub_add_cancel s.sp 1, rfl, hread⟩

/-! ### `Int`, `IRet`, `Halt` -/

theorem execInt_ignored {s : State} (h : s.inInterrupt = true) : execInt s = .next (advance 1 s) := if_pos h

theorem execInt_taken {s : State} (hc : s.channel = .idle) (h : s.inInterrupt = false) :
    execInt s = .next { s with
      mode := .kernel, inInterrupt := true, sp := 1997, pc := 1500,
      mem := (s.mem.write 1998 s.sp).write 1997 (s.pc + 1),
      requests := s.requests ++ [.write 1998 s.sp, .write 1997 (s.pc + 1)] } := by
  rw [execInt, if_neg (by simp [h]), trapEnter_eq (by exact hc)]
  rfl

/-- Settles O27: a taken `Int` is the trap entry, whose two writes are at fixed addresses of memory. -/
theorem intResult : Obligations.IntResult := by
  refine fun s hc hm => ⟨execInt_ignored, fun hi => ?_⟩
  obtain ⟨h8, h7, hother⟩ := read_trapEntry hm s.sp (s.pc + 1)
  exact ⟨_, execInt_taken hc hi, h8, h7, hother, rfl⟩

/-- A trap return with both its words in memory (60_exceptions.md R197). -/
theorem trapReturn_inMemory {s : State} (hc : s.channel = .idle) (h0 : 0 ≤ s.sp.toInt) (h1 : s.sp.toInt ≤ 1998) :
    trapReturn s = .next { s with
      pc := s.mem.read s.sp.toNat, sp := s.mem.read (s.sp.toNat + 1), mode := .user, inInterrupt := false,
      requests := s.requests ++ [.read s.sp, .read (s.sp + 1)] } := by
  obtain ⟨hb, ha⟩ := next_address_inMemory h0 h1
  rw [trapReturn_eq hc ((inBounds_iff_toInt _).2 ⟨h0, by omega⟩) hb, ha]

/-- A trap return whose second pop is at 2000. -/
theorem trapReturn_at_1999 {s : State} (hc : s.channel = .idle) (h : s.sp = 1999) :
    trapReturn s = .fault (.outOfBounds 2000
      { mem := s.mem, out := s.out, requests := s.requests ++ [.read 1999, .read 2000] }) := by
  have hin : InMemory s.sp := by
    rw [h]
    exact (inMemory_iff _).2 rfl
  have hout : ¬InMemory (s.sp + 1) := by
    rw [h]
    exact (not_inMemory_iff _).2 rfl
  rw [trapReturn, popWord_inMemory hc hin, andThen_next, popWord_outside (by exact hc) hout, andThen_fault, h,
    List.append_assoc]
  rfl

/-- Settles O28: `IRet` is two pops, which look at neither `Mode` nor `InInterrupt`. -/
theorem iRetResult : Obligations.IRetResult := by
  refine fun s hc => ⟨fun h => ?_, trapReturn_at_1999 hc, trapReturn_inMemory hc⟩
  rw [exec, execIRet, trapReturn, popWord_outside hc h, andThen_fault]

/-- Settles O29: `IRet` pops at 1997 and 1998 what the trap entry saved there. -/
theorem intThenIRetRestores : Obligations.IntThenIRetRestores := by
  intro s t u hm hs hi ht hc hsp h7 h8
  rcases execInt_next ht with ⟨hin, -⟩ | ⟨-, -, rfl⟩
  · exact absurd (hin.symm.trans hi) (by decide)
  · obtain ⟨hread8, hread7, -⟩ := read_trapEntry hm s.sp (s.pc + 1)
    have hsp7 : u.sp = 1997 := hsp
    have hret := trapReturn_inMemory hc (by rw [hsp7]; decide) (by rw [hsp7]; decide)
    rw [hsp7] at hret
    exact ⟨_, hret, h7.trans hread7, h8.trans hread8, hs.symm, rfl⟩

/-- `Halt` on an Idle channel: the `ReqDone` is taken without an answer (log 10). -/
theorem execHalt_eq {s : State} (hc : s.channel = .idle) :
    execHalt s = .next { s with status := .halted, requests := s.requests ++ [.done] } := by
  have hsend : send .done { s with status := .halted } =
      .next { s with status := .halted, channel := .pending .done, requests := s.requests ++ [.done] } := by
    rw [send, hc]
  rw [execHalt, hsend, andThen_next, respond, hc]
  rfl

/-- Settles O30: `Halt` leaves a status at which no timer check is made. -/
theorem haltResult : Obligations.HaltResult := by
  refine ⟨fun s hc => execHalt_eq hc, fun s hr hp hw => ⟨?_, rfl⟩⟩
  have hi : InstrAt .halt s := ⟨(inMemory_iff _).1 hp, hw, trivial⟩
  rw [step_of_instrAt hr hi, exec, execHalt_eq (by exact hr.channelIdle), andThen_next]
  rfl

/-- Settles O46: 0 stands for Halted alone. -/
theorem exitCodes : Obligations.ExitCodes :=
  ⟨rfl, rfl, fun _ => ⟨_, rfl, exitCode_faulted_ne_zero rfl⟩⟩

end Sys2Proof.Machine
end

section
/-! PROOF. Memory as data, the reset state and the initial states of a run (10_state.md R39, 00_scope.md R8). -/

namespace Sys2Proof.Machine

/-! ### Memory -/

/-- Settles O42: the write answered, so its address is one of memory, and the laws of read after write apply. -/
theorem writeIsSeenByNextRead : Obligations.WriteIsSeenByNextRead := by
  intro a v s t hm h
  obtain ⟨hc, hb, rfl⟩ := memWrite_next h
  refine ⟨?_, fun b hin hne => ?_⟩
  · rw [memRead_eq (by exact hc), if_pos hb, read_write_same hm]
  · have hne' : b.toNat ≠ a.toNat := fun he => hne (BitVec.eq_of_toNat_eq he)
    rw [memRead_eq (by exact hc), if_pos ((inMemory_iff b).1 hin), read_write_other hne']

/-- The first cell of a memory in canonical form is at no later address than another memory that reads the same gives
it: before its own first cell it would read 0. -/
theorem first_address_le {lo k l : Nat} {v w : Word} {m n : Memory} (hm : Memory.wfFrom lo ((k, v) :: m) = true)
    (hn : Memory.wfFrom lo ((l, w) :: n) = true)
    (h : ∀ j, j < 2000 → Memory.read ((k, v) :: m) j = Memory.read ((l, w) :: n) j) : l ≤ k := by
  obtain ⟨-, hk, hv, -⟩ := (wfFrom_cons lo k v m).1 hm
  obtain ⟨-, hl, hw, hn'⟩ := (wfFrom_cons lo l w n).1 hn
  by_contra hlt
  have hread := h k hk
  rw [read_cons, if_pos rfl, read_cons, if_neg (by omega), read_below (by omega) hn'] at hread
  exact hv hread

/-- A memory in canonical form with a cell does not read 0 everywhere. -/
theorem not_all_zero {lo k : Nat} {v : Word} {m : Memory} (hm : Memory.wfFrom lo ((k, v) :: m) = true) :
    ¬∀ j, j < 2000 → Memory.read ((k, v) :: m) j = 0 := by
  obtain ⟨-, hk, hv, -⟩ := (wfFrom_cons lo k v m).1 hm
  intro h
  have hread := h k hk
  rw [read_cons, if_pos rfl] at hread
  exact hv hread

/-- With the first cell taken off both, memories in canonical form still read the same. -/
theorem read_tail_eq {k : Nat} {v : Word} {m n : Memory} (hm : Memory.wfFrom (k + 1) m = true)
    (hn : Memory.wfFrom (k + 1) n = true)
    (h : ∀ j, j < 2000 → Memory.read ((k, v) :: m) j = Memory.read ((k, v) :: n) j) :
    ∀ j, j < 2000 → m.read j = n.read j := by
  intro j hj
  by_cases hjk : j = k
  · rw [read_below (by omega) hm, read_below (by omega) hn]
  · have hread := h j hj
    rwa [read_cons, if_neg (Ne.symm hjk), read_cons, if_neg (Ne.symm hjk)] at hread

theorem eq_of_read_eq {lo : Nat} {m n : Memory} (hm : Memory.wfFrom lo m = true) (hn : Memory.wfFrom lo n = true)
    (h : ∀ j, j < 2000 → m.read j = n.read j) : m = n := by
  induction m generalizing lo n with
  | nil =>
    cases n with
    | nil => rfl
    | cons c n => exact absurd (fun j hj => (h j hj).symm) (not_all_zero hn)
  | cons c m ih =>
    obtain ⟨k, v⟩ := c
    cases n with
    | nil => exact absurd h (not_all_zero hm)
    | cons d n =>
      obtain ⟨l, w⟩ := d
      obtain rfl : k = l :=
        Nat.le_antisymm (first_address_le hn hm fun j hj => (h j hj).symm) (first_address_le hm hn h)
      obtain ⟨-, hk, -, hm'⟩ := (wfFrom_cons lo k v m).1 hm
      obtain ⟨-, -, -, hn'⟩ := (wfFrom_cons lo k w n).1 hn
      obtain rfl : v = w := by
        have hread := h k hk
        rwa [read_cons, if_pos rfl, read_cons, if_pos rfl] at hread
      rw [ih hm' hn' (read_tail_eq hm' hn' h)]

/-- Settles O43: cell by cell, since the first cell of each is the first address that does not read 0. -/
theorem canonicalMemoryIsDetermined : Obligations.CanonicalMemoryIsDetermined :=
  fun _ _ hm hn h => eq_of_read_eq hm hn h

/-! ### The image as memory -/

theorem imageMemory_concat (image : Image) (e : Int × Int) :
    imageMemory (image ++ [e]) = (imageMemory image).write e.1.toNat (BitVec.ofInt XLEN e.2) :=
  List.foldl_concat ..

theorem imageValue_concat (image : Image) (e : Int × Int) (a : Int) :
    imageValue (image ++ [e]) a = if e.1 = a then e.2 else imageValue image a := by
  simp only [imageValue, List.reverse_concat, List.find?_cons]
  by_cases h : e.1 = a <;> simp [h]

theorem entryOk_iff (e : Int × Int) :
    Image.entryOk e = true ↔ 0 ≤ e.1 ∧ e.1 ≤ 1999 ∧ -2147483648 ≤ e.2 ∧ e.2 ≤ 2147483647 := by
  simp only [Image.entryOk, Word.fits, Word.minInt_eq, Word.maxInt_eq, Bool.and_eq_true, decide_eq_true_eq]
  omega

theorem image_ok_iff (image : Image) :
    image.ok = true ↔ ∀ e ∈ image, 0 ≤ e.1 ∧ e.1 ≤ 1999 ∧ -2147483648 ≤ e.2 ∧ e.2 ≤ 2147483647 := by
  simp only [Image.ok, List.all_eq_true, entryOk_iff]

theorem intervalOk_iff (t : Int) : intervalOk t = true ↔ 1 ≤ t ∧ t ≤ 2147483647 := by
  simp only [intervalOk, Word.maxInt_eq, decide_eq_true_eq]

/-- An image with one more entry is acceptable when it was and the entry is. -/
theorem image_ok_concat (image : Image) (e : Int × Int) :
    Image.ok (image ++ [e]) = true ↔ image.ok = true ∧ Image.entryOk e = true := by
  simp [Image.ok]

theorem wf_imageMemory {image : Image} (h : image.ok = true) : (imageMemory image).wf = true := by
  induction image using List.reverseRecOn with
  | nil => rfl
  | append_singleton image e ih =>
    obtain ⟨himage, he⟩ := (image_ok_concat image e).1 h
    obtain ⟨h0, h1, -⟩ := (entryOk_iff e).1 he
    rw [imageMemory_concat]
    exact wf_write (by omega) (ih himage) _

/-- A value in the range of a Word is the value of the Word it makes. -/
theorem toInt_ofInt {v : Int} (h0 : -2147483648 ≤ v) (h1 : v ≤ 2147483647) : (BitVec.ofInt XLEN v).toInt = v :=
  BitVec.toInt_ofInt_eq_self (by decide) h0 (Int.lt_add_one_of_le h1)

/-- Each address holds the value its last entry gives it (00_scope.md R8). -/
theorem read_imageMemory {image : Image} (h : image.ok = true) {a : Int} (ha : 0 ≤ a) :
    ((imageMemory image).read a.toNat).toInt = imageValue image a := by
  induction image using List.reverseRecOn with
  | nil => rfl
  | append_singleton image e ih =>
    obtain ⟨himage, he⟩ := (image_ok_concat image e).1 h
    obtain ⟨h0, -, hv0, hv1⟩ := (entryOk_iff e).1 he
    rw [imageMemory_concat, imageValue_concat]
    split
    · subst_vars
      rw [read_write_same (wf_imageMemory himage), toInt_ofInt hv0 hv1]
    · rw [read_write_other (by omega), ih himage]

/-! ### The initial states -/

/-- The one initial state of an admissible image and interval. -/
theorem bootState_admitted {image : Image} {t : Int} (ht : intervalOk t = true) (hi : image.ok = true) :
    bootState image t =
      .next { State.reset with mem := imageMemory image, timeToInterrupt := BitVec.ofInt XLEN t } := by
  rw [bootState, if_neg (by simp [ht]), if_neg (by simp [hi])]

theorem bootState_badInterval {image : Image} {t : Int} (ht : intervalOk t = false) :
    bootState image t = .refused (.badInterval t) := if_pos ht

theorem bootState_badImage {image : Image} {t : Int} (ht : intervalOk t = true) (hi : image.ok = false) :
    bootState image t = .refused (.badImage image) := by
  rw [bootState, if_neg (by simp [ht]), if_pos hi]

/-- What `bootState` accepts is an admissible interval and image. -/
theorem bootState_next {image : Image} {t : Int} {s : State} (h : bootState image t = .next s) :
    intervalOk t = true ∧ image.ok = true ∧
      s = { State.reset with mem := imageMemory image, timeToInterrupt := BitVec.ofInt XLEN t } := by
  cases ht : intervalOk t with
  | false => rw [bootState_badInterval ht] at h; cases h
  | true =>
    cases hi : image.ok with
    | false => rw [bootState_badImage ht hi] at h; cases h
    | true => rw [bootState_admitted ht hi] at h; cases h; exact ⟨rfl, rfl, rfl⟩

/-- Settles O1: the values of the definition; an empty memory reads 0. -/
theorem resetStateValues : Obligations.ResetStateValues :=
  ⟨rfl, rfl, rfl, rfl, rfl, rfl, rfl, rfl, rfl, rfl, rfl, read_nil⟩

/-- Settles O4: at reset the counter is 0 and no interrupt is in service. -/
theorem resetMeetsInvariant : Obligations.ResetMeetsInvariant where
  modeService := by decide
  channelIdle := rfl
  memWf := wf_reset
  counterNonneg := by decide
  counterBelow := by decide

/-- Settles O2: the reset values are `State.reset`'s; memory and `T` are the image's and the interval's own values. -/
theorem bootStateValues : Obligations.BootStateValues := by
  intro image t h1 ht himage
  have hok := (image_ok_iff image).2 himage
  exact ⟨_, bootState_admitted ((intervalOk_iff t).2 ⟨h1, ht⟩) hok, rfl, rfl, rfl, rfl, rfl, rfl, rfl, rfl, rfl, rfl,
    rfl, toInt_ofInt (by omega) ht, fun a ha _ => read_imageMemory hok ha⟩

/-- Settles O3: the interval is checked first, then every entry of the image. -/
theorem bootRefusesBadInputs : Obligations.BootRefusesBadInputs := by
  refine fun image t => ⟨fun ht => ?_, fun h1 ht hbad => ?_⟩
  · refine bootState_badInterval (Bool.eq_false_iff.2 fun hok => ?_)
    obtain ⟨h1, h2⟩ := (intervalOk_iff t).1 hok
    omega
  · refine bootState_badImage ((intervalOk_iff t).2 ⟨h1, ht⟩) (Bool.eq_false_iff.2 fun hok => ?_)
    obtain ⟨e, he, hout⟩ := hbad
    obtain ⟨h0, h1999, hv0, hv1⟩ := (image_ok_iff image).1 hok e he
    omega

/-- Settles O5: an accepted interval is above the counter's 0, and an accepted image makes a canonical memory. -/
theorem bootMeetsInvariant : Obligations.BootMeetsInvariant := by
  intro image t s h
  obtain ⟨ht, hi, rfl⟩ := bootState_next h
  obtain ⟨h1, h2⟩ := (intervalOk_iff t).1 ht
  have hT : (BitVec.ofInt XLEN t).toInt = t := toInt_ofInt (by omega) h2
  have hbelow : (0 : Word).toInt < (BitVec.ofInt XLEN t).toInt := by
    rw [hT]
    exact h1
  exact ⟨⟨by simp [State.reset], rfl, wf_imageMemory hi, le_refl _, hbelow⟩, rfl, rfl⟩

end Sys2Proof.Machine
end
